-- ==== Sys2Proof/Word.lean ====
section
/-! DEFINITION. The word types of PixelPacker: u8 channels and bytes, u16 and u32 packed words, u64 lengths
(spec/00_scope.md R10, R13, R14). -/

namespace Sys2Proof

/-- u8: one channel, one byte of OUT, one command byte (R10, R13). -/
abbrev Byte := BitVec 8

/-- u16: the packed pixel of RGB565 (R10). -/
abbrev U16 := BitVec 16

/-- u32: the packed pixel of ARGB8888, the dimensions and the cursors (R10, R13). -/
abbrev U32 := BitVec 32

/-- u64: the length register (R13). -/
abbrev U64 := BitVec 64

end Sys2Proof
end

