-- ==== Sys2Proof/Config.lean ====
section
/-! DEFINITION. What an implementation of PixelPacker fixes (the OPEN parameters of spec/00_scope.md R11, R12,
spec/60_exceptions.md R168 and spec/93_implementation_defined.md U10) and the free values of what the spec leaves open. -/

namespace Sys2Proof

/-- `ISSUE_ORDER` (spec/00_scope.md R12): pixels one at a time in scan order, or any pending pixel at each step. -/
inductive IssueOrder where
  | rowMajor
  | any
deriving DecidableEq, Repr

/-- `REG_MAP` (spec/10_state.md R34, OPEN): the bus addresses of the three registers. No rule reads it. -/
structure RegMap where
  cmd    : Nat
  status : Nat
  len    : Nat
deriving DecidableEq, Repr

/-- The parameters of one implementation. State carries them and no step writes them (log 1). -/
structure Config where
  /-- `LEN_MAX`: the largest total output length in bytes that START accepts (R11). -/
  lenMax     : Nat
  /-- `ISSUE_ORDER` (R12). -/
  issueOrder : IssueOrder
  /-- `N_LANES`, at least 1 (R168). No rule reads it. -/
  nLanes     : Nat
  /-- `OUT_BASE`: where OUT sits in host memory (R54). No rule reads it. -/
  outBase    : Nat
  /-- `REG_MAP` (R34). No rule reads it. -/
  regMap     : RegMap
  /-- `RESET_SIGNAL` (spec/70_reset_and_hazards.md R176): which of the platform's ways of signalling asserts the reset input, by a
  number the platform gives it. No rule reads it (log 17). -/
  resetSignal : Nat
deriving DecidableEq, Repr

/-- The parameters `State.reset` carries. DESIGN CHOICE, unsafe (log 1, log 17): LEN_MAX is the value
spec/95_test_vectors.md assumes; RowMajor is the spec's own default (R12). -/
def Config.atReset : Config :=
  { lenMax := 2 ^ 32 - 1, issueOrder := .rowMajor, nLanes := 1, outBase := 0,
    regMap := { cmd := 0, status := 1, len := 2 }, resetSignal := 0 }

/-! The free values: constants without a body, applied to the counter `State.draws` or to an offset. Nothing in Lean can
evaluate them, so a statement about them holds whatever they are. -/

/-- FREE VALUE (log 2): which pending pixel a step takes under `ISSUE_ORDER = Any` (spec/41_raster_serializer.md R133). -/
opaque Config.drawIndex : Nat → Nat

/-- FREE VALUE (log 8, log 9): a draw of one of two outcomes (spec/70_reset_and_hazards.md R183, R186). -/
opaque Config.drawBit : Nat → Bool

/-- FREE VALUE (log 4): what `X` holds after a pixel step under `ISSUE_ORDER = Any` (spec/10_state.md R29). -/
opaque Config.freeCursorX : Nat → U32

/-- FREE VALUE (log 4): what `Y` holds after a pixel step under `ISSUE_ORDER = Any` (spec/10_state.md R29). -/
opaque Config.freeCursorY : Nat → U32

/-- FREE VALUE (log 7): the byte the host left in OUT at an offset nothing has written (spec/10_state.md R36). -/
opaque Config.outBefore : Nat → Byte

end Sys2Proof
end

