-- ==== Sys2Proof/Syntax.lean ====
section
/-! DEFINITION. The instructions of PixelPacker: the two host commands of spec/opcode_table.json
(spec/30_encoding.md R70, R71, R88). -/

namespace Sys2Proof

/-- One constructor per row of the opcode table. A command has no operand (spec/30_encoding.md R83): its inputs come from
the pixel source. -/
inductive Instr where
  /-- `PACK.RGB565`, START with CMD = 0x00 (spec/41_raster_serializer.md R141). -/
  | packRgb565
  /-- `PACK.ARGB8888`, START with CMD = 0x01 (spec/41_raster_serializer.md R142). -/
  | packArgb8888
deriving DecidableEq, Repr

end Sys2Proof
end

