-- ==== Sys2Proof/WellFormed.lean ====
section
/-! DEFINITION. What a well-formed instruction and a well-formed parameter set are. The checks on the pixel source, on
memory and on the pending set stand beside their types in Machine/State.lean. -/

namespace Sys2Proof

/-- A command has no operand, so every instruction is well-formed (spec/30_encoding.md R73, R83). -/
def Instr.wf : Instr → Bool
  | .packRgb565   => true
  | .packArgb8888 => true

/-- 1 <= LEN_MAX <= 2^64 - 1 (spec/00_scope.md R11) and N_LANES >= 1 (spec/60_exceptions.md R168). -/
def Config.wf (c : Config) : Bool :=
  decide (1 ≤ c.lenMax) && decide (c.lenMax ≤ 2 ^ 64 - 1) && decide (1 ≤ c.nLanes)

end Sys2Proof
end

