-- ==== Sys2Proof/Decode.lean ====
section
/-! DEFINITION. The command byte: the decoder, total on every byte and rejecting the reserved tags by name, and the encoder
(spec/30_encoding.md R70 to R74, R88). -/

namespace Sys2Proof

/-- What a command byte stands for (spec/30_encoding.md R74). -/
inductive Decoded where
  /-- One of the two defined tags. -/
  | instr (i : Instr)
  /-- A reserved tag, 0x02 to 0xFF, by its value. START with it raises UnsupportedFormat (R72). -/
  | reserved (c : Byte)
deriving DecidableEq, Repr

/-- R74: `decode(c) = RGB565 if c = 0x00; ARGB8888 if c = 0x01; Reserved(c) otherwise`. -/
def decode (c : Byte) : Decoded :=
  if c = 0x00#8 then .instr .packRgb565
  else if c = 0x01#8 then .instr .packArgb8888
  else .reserved c

/-- R71: the tag of each format. -/
def encode : Instr → Byte
  | .packRgb565   => 0x00#8
  | .packArgb8888 => 0x01#8

/-- The instruction the decoder reads from a row's bits. A command is exactly one byte (R73), so only the first byte of the
word is looked at, and only its `nbits` low bits. -/
def decodeTableWord (nbits w : Nat) : Option Instr :=
  match decode (BitVec.ofNat 8 (w % 2 ^ nbits)) with
  | .instr i    => some i
  | .reserved _ => none

end Sys2Proof
end

