-- ==== Sys2Proof/Machine/State.lean ====
section
/-! DEFINITION. The state of PixelPacker as plain data, its reset value, and the reasons a step can stop. INVENTORY.md lists
every field with its rule. -/

namespace Sys2Proof.Machine

/-- Four u8 channels: the stored colour of one pixel, and the register `PIX` (spec/10_state.md R32). -/
structure Rgba where
  r : Byte
  g : Byte
  b : Byte
  a : Byte
deriving DecidableEq, Repr

/-- `Channels` (spec/20_memory.md R47, spec/40_pixel_encoders.md R90): what a PixRead returns. -/
inductive Channels where
  | rgb  (r g b : Byte)
  | rgba (r g b a : Byte)
deriving DecidableEq, Repr

/-- The pixel source `SRC` (spec/10_state.md R35). Its pixel function is plain data: the pixels that are listed, by
`pixelKey`, and the colour `fill` of every other pixel of the grid (log 5). The stored alpha of a source without an alpha
channel is never delivered. -/
structure Source where
  width    : U32
  height   : U32
  hasAlpha : Bool
  fill     : Rgba
  pixels   : List (Nat × Rgba)
deriving DecidableEq, Repr

/-- The keys of a sparse map rise strictly. -/
def keysRise {α : Type} : List (Nat × α) → Bool
  | [] => true
  | [_] => true
  | p :: q :: t => decide (p.1 < q.1) && keysRise (q :: t)

/-- The canonical form of a source: keys strictly rising, no listed pixel equal to `fill`. -/
def Source.wf (src : Source) : Bool :=
  keysRise src.pixels && src.pixels.all (fun p => p.2 != src.fill)

/-- Bytes by offset, sorted by offset. An offset that is not listed has no value of the model's: nothing has written it
(log 7). -/
abbrev Memory := List Host.Cell

/-- The canonical form of memory: offsets strictly rising. No entry can equal what an unlisted offset reads as, since that is
no value. -/
def Memory.wf (m : Memory) : Bool := keysRise m

/-- The naturals `lo <= i < hi`. -/
structure Span where
  lo : Nat
  hi : Nat
deriving DecidableEq, Repr

/-- `PEND`, a set of linear pixel indices (spec/10_state.md R31), as disjoint spans in rising order (log 11). -/
abbrev Pending := List Span

/-- The canonical form of a pending set: no empty span, and a gap between two neighbours, so equal sets are equal lists. -/
def Pending.wf : Pending → Bool
  | [] => true
  | [p] => decide (p.lo < p.hi)
  | p :: q :: t => decide (p.lo < p.hi) && decide (p.hi < q.lo) && Pending.wf (q :: t)

/-- `STATUS.STATE` (spec/10_state.md R26, spec/30_encoding.md R76). -/
inductive ConvState where
  | idle
  | busy
  | done
  | error
deriving DecidableEq, Repr

/-- `STATUS.ERR` (spec/10_state.md R28, spec/30_encoding.md R77). The code 3 is reserved and never written, so it has no
constructor (log 20). -/
inductive ErrCode where
  | none
  | unsupportedFormat
  | invalidDimensions
deriving DecidableEq, Repr

/-- `OutputFormat` (spec/00_scope.md R2). -/
inductive OutputFormat where
  | rgb565
  | argb8888
deriving DecidableEq, Repr

/-- What the host can do beside writing CMD. -/
inductive HostAccess where
  /-- `READ STATUS` (spec/41_raster_serializer.md R143). -/
  | readStatus
  /-- `READ LEN` (spec/41_raster_serializer.md R144). -/
  | readLen
  /-- The pseudo-instruction `POLL` (spec/30_encoding.md R87). -/
  | poll
  /-- A host write to STATUS, ignored (spec/10_state.md R34). -/
  | writeStatus (v : Byte)
  /-- A host write to LEN, ignored (spec/10_state.md R34). -/
  | writeLen (v : U64)
  /-- A host read of one byte of OUT (spec/20_memory.md R60). -/
  | readOut (off : U64)
  /-- A host write of one byte of OUT (spec/70_reset_and_hazards.md R186). -/
  | writeOut (off : U64) (v : Byte)
  /-- The host puts another pixel source in place (spec/70_reset_and_hazards.md R180, R184). -/
  | supplySrc (src : Source)
deriving DecidableEq, Repr

/-- Who moves next, and how (log 10). -/
inductive Input where
  /-- The host writes the byte `c` to CMD (spec/30_encoding.md R70). -/
  | command (c : Byte)
  /-- Any other action of the host. -/
  | access (a : HostAccess)
  /-- The platform asserts the reset input (spec/70_reset_and_hazards.md R176). -/
  | reset
  /-- The block takes its own step, if it has one enabled (spec/41_raster_serializer.md R133, R147). -/
  | block
deriving DecidableEq, Repr

/-- A value a host read has returned. -/
inductive Observation where
  | status (v : Byte)
  | len (v : U64)
  | outByte (off : U64) (v : Byte)
deriving DecidableEq, Repr

/-- The whole state: the implementation's parameters, the registers of spec/10_state.md R21, the two structures the host owns,
and the model's own fields. -/
@[ext]
structure State where
  /-- The parameters of the implementation. No step writes them (log 1). -/
  cfg       : Config
  /-- `STATUS.STATE` (R26). -/
  convState : ConvState
  /-- `STATUS.ERR` (R28). -/
  errCode   : ErrCode
  /-- `LEN` (R27). -/
  len       : U64
  /-- `FMT_R` (R23). -/
  fmtR      : Byte
  /-- `W_R` (R24). -/
  wR        : U32
  /-- `H_R` (R24). -/
  hR        : U32
  /-- `A_R` (R25), one bit. -/
  aR        : Bool
  /-- `X` (R29). -/
  x         : U32
  /-- `Y` (R29). -/
  y         : U32
  /-- `PEND` (R31). -/
  pend      : Pending
  /-- `PIX` (R32). -/
  pix       : Rgba
  /-- `PK` (R32). -/
  pk        : U32
  /-- `SRC`, the host's (R35). -/
  src       : Source
  /-- `OUT`, the host's (R36). -/
  out       : Memory
  /-- The model's: what happens next, in order (log 10). -/
  inputs    : List Input
  /-- The model's: what the host's reads have returned, newest first. -/
  seen      : List Observation
  /-- The model's: OUT as the last accepted START found it, the old values of spec/20_memory.md R60 (log 8). -/
  outOld    : Memory
  /-- The model's: SRC as the last accepted START found it, the fixed source of the whole conversion, as
  spec/70_reset_and_hazards.md R184 asks of a model (log 25). -/
  view      : Source
  /-- The model's: host writes of OUT that land after the block's write of the same byte (log 9). -/
  late      : Memory
  /-- The model's: the host has read DONE since the last accepted START (log 8). -/
  doneRead  : Bool
  /-- The model's: the counter the free values are applied to. -/
  draws     : Nat
deriving DecidableEq, Repr

/-- Why the machine stops with a fault. Only the first one is the spec's own, and only it can be reached from a state that
meets the invariant of Safety.lean. -/
inductive Fault where
  /-- Raised by a CMD write while STATUS.STATE = BUSY: "A model records the fault `HostProtocolViolation`"
  (spec/60_exceptions.md R166). Safe: the model has no run past it. -/
  | hostProtocolViolation
  /-- Raised by a pixel step whose coordinate lies outside the latched grid, where PixRead "is undefined"
  (spec/20_memory.md R47). Safe: never reached under the invariant (log 14). -/
  | pixReadOutsideGrid
  /-- Raised by a MemWrite at an offset of LEN or above, which the block never issues (spec/20_memory.md R48, R55).
  Safe: never reached under the invariant (log 14). -/
  | memWriteOutsideOut
  /-- Raised by a pixel step with a reserved tag in FMT_R, where bpp "is not defined" (spec/41_raster_serializer.md R117).
  Safe: never reached under the invariant (log 14). -/
  | formatNotDefined
  /-- Raised by a pixel step under `Any` that has no pending pixel to choose (spec/41_raster_serializer.md R133).
  Safe: never reached under the invariant (log 14). -/
  | noPendingPixel
deriving DecidableEq, Repr

/-- Why the model gives a step no meaning. -/
inductive Refusal where
  /-- Raised by `exec` for an instruction that has no meaning yet. Safe: the model stops. No arm answers it. -/
  | notModelled (mnemonic : String)
  /-- Raised by the host's change of a pixel value of SRC while BUSY: "its behaviour is unsaid"
  (spec/70_reset_and_hazards.md R184; spec/93_implementation_defined.md U8, "refuse"). Safe: the model stops (log 12). -/
  | sourceChangedWhileBusy
deriving DecidableEq, Repr

/-- The outcome of a step of this machine. -/
abbrev Result := Host.Outcome State Fault Refusal

/-- The source at reset. DESIGN CHOICE (log 5): no pixel at all. -/
def Source.empty : Source :=
  { width := 0#32, height := 0#32, hasAlpha := false, fill := ⟨0#8, 0#8, 0#8, 0#8⟩, pixels := [] }

/-- The state after reset (spec/70_reset_and_hazards.md R175, R176) of an implementation with the parameters `cfg`: STATUS = 0,
LEN = 0. Every other register is unspecified there: DESIGN CHOICE 0, unsafe (log 3). -/
def State.resetWith (cfg : Config) : State :=
  { cfg := cfg
    convState := .idle, errCode := .none, len := 0#64
    fmtR := 0#8, wR := 0#32, hR := 0#32, aR := false
    x := 0#32, y := 0#32, pend := []
    pix := ⟨0#8, 0#8, 0#8, 0#8⟩, pk := 0#32
    src := Source.empty, out := []
    inputs := [], seen := [], outOld := [], view := Source.empty, late := [], doneRead := true, draws := 0 }

/-- The state after reset. -/
def State.reset : State := State.resetWith Config.atReset

end Sys2Proof.Machine
end

