-- ==== Sys2Proof/Machine/Flags.lean ====
section
/-! DEFINITION. The status word. The block has no condition codes (spec/10_state.md R33): its only flags are the two fields of
STATUS (spec/30_encoding.md R75 to R77). -/

namespace Sys2Proof.Machine

/-- R76: 0 IDLE, 1 BUSY, 2 DONE, 3 ERROR. -/
def stateBits : ConvState → BitVec 2
  | .idle  => 0#2
  | .busy  => 1#2
  | .done  => 2#2
  | .error => 3#2

/-- R77: 0 NONE, 1 UnsupportedFormat, 2 InvalidDimensions. -/
def errBits : ErrCode → BitVec 2
  | .none              => 0#2
  | .unsupportedFormat => 1#2
  | .invalidDimensions => 2#2

/-- R75, R143: STATUS reads as `{0000, STATUS.ERR, STATUS.STATE}`. -/
def statusWord (s : State) : Byte :=
  0#4 ++ errBits s.errCode ++ stateBits s.convState

end Sys2Proof.Machine
end

