-- ==== Sys2Proof/Machine/Operands.lean ====
section
/-! DEFINITION. The operands of a conversion and the per-pixel arithmetic: the format tag, the pixel source, the alpha latch,
the encoders U1 and U2 and the serializer U4 (spec/40_pixel_encoders.md, spec/41_raster_serializer.md §1). -/

namespace Sys2Proof.Machine

/-! ## The format tag -/

/-- The output format of a command (spec/30_encoding.md R71). -/
def formatOf : Instr → OutputFormat
  | .packRgb565   => .rgb565
  | .packArgb8888 => .argb8888

/-- The output format a tag names; none for a reserved tag (spec/30_encoding.md R72, R74). -/
def formatOfTag (c : Byte) : Option OutputFormat :=
  match decode c with
  | .instr i    => some (formatOf i)
  | .reserved _ => none

/-- `bpp` (spec/41_raster_serializer.md R117). -/
def bpp : OutputFormat → Nat
  | .rgb565   => 2
  | .argb8888 => 4

/-! ## The pixel source -/

/-- The value a sparse map lists for a key. -/
def lookup {α : Type} : List (Nat × α) → Nat → Option α
  | [], _ => none
  | p :: t, k => if k = p.1 then some p.2 else lookup t k

/-- The key of a coordinate in `Source.pixels`: raster order, whatever the width (log 5). -/
def pixelKey (x y : Nat) : Nat := y * 2 ^ 32 + x

/-- The stored colour of a pixel. -/
def Source.stored (src : Source) (x y : Nat) : Rgba :=
  (lookup src.pixels (pixelKey x y)).getD src.fill

/-- A stored colour as a source with or without an alpha channel delivers it (spec/20_memory.md R47). -/
def asChannels (alpha : Bool) (p : Rgba) : Channels :=
  if alpha then .rgba p.r p.g p.b p.a else .rgb p.r p.g p.b

/-- `SRC.pixel(x, y)` (spec/10_state.md R35, spec/20_memory.md R47). -/
def Source.pixel (src : Source) (x y : Nat) : Channels :=
  asChannels src.hasAlpha (src.stored x y)

/-- The red channel of a `Channels` value. -/
def Channels.red : Channels → Byte
  | .rgb r _ _    => r
  | .rgba r _ _ _ => r

/-- The green channel. -/
def Channels.green : Channels → Byte
  | .rgb _ g _    => g
  | .rgba _ g _ _ => g

/-- The blue channel. -/
def Channels.blue : Channels → Byte
  | .rgb _ _ b    => b
  | .rgba _ _ b _ => b

/-- The alpha a conversion uses: the source's when the kind bit says RGBA, else 255 (spec/40_pixel_encoders.md R91). -/
def Channels.alphaOr255 (hasAlpha : Bool) : Channels → Byte
  | .rgb _ _ _    => 255#8
  | .rgba _ _ _ a => if hasAlpha then a else 255#8

/-- The channel latch: what a pixel step loads into PIX (spec/40_pixel_encoders.md R91). -/
def latchChannels (hasAlpha : Bool) (c : Channels) : Rgba :=
  ⟨c.red, c.green, c.blue, c.alphaOr255 hasAlpha⟩

/-! ## U1 and U2: the encoders -/

/-- `ENC565` (spec/40_pixel_encoders.md R93; layout spec/30_encoding.md R79): truncation to 5, 6 and 5 bits. -/
def enc565 (r g b : Byte) : U16 :=
  ((r >>> 3).zeroExtend 16 <<< 11) ||| ((g >>> 2).zeroExtend 16 <<< 5) ||| (b >>> 3).zeroExtend 16

/-- `ENC8888` (spec/40_pixel_encoders.md R98; layout spec/30_encoding.md R80). -/
def enc8888 (a r g b : Byte) : U32 :=
  (a.zeroExtend 32 <<< 24) ||| (r.zeroExtend 32 <<< 16) ||| (g.zeroExtend 32 <<< 8) ||| b.zeroExtend 32

/-- `PK`, the packed value of the latched channels: `PK[31:16] = 0` for RGB565 (spec/10_state.md R32, R93, R98). -/
def packedWord (f : OutputFormat) (p : Rgba) : U32 :=
  match f with
  | .rgb565   => (enc565 p.r p.g p.b).zeroExtend 32
  | .argb8888 => enc8888 p.a p.r p.g p.b

/-! The fields of a packed word, read back (spec/40_pixel_encoders.md R106). The block itself never decodes one. -/

/-- `R5 = v[15:11]`. -/
def red5 (v : U16) : BitVec 5 := v.extractLsb' 11 5

/-- `G6 = v[10:5]`. -/
def green6 (v : U16) : BitVec 6 := v.extractLsb' 5 6

/-- `B5 = v[4:0]`. -/
def blue5 (v : U16) : BitVec 5 := v.extractLsb' 0 5

/-- `A = v[31:24]`. -/
def alpha8 (v : U32) : Byte := v.extractLsb' 24 8

/-- `R = v[23:16]`. -/
def red8 (v : U32) : Byte := v.extractLsb' 16 8

/-- `G = v[15:8]`. -/
def green8 (v : U32) : Byte := v.extractLsb' 8 8

/-- `B = v[7:0]`. -/
def blue8 (v : U32) : Byte := v.extractLsb' 0 8

/-! ## U4: the big-endian serializer -/

/-- `BE16` (spec/41_raster_serializer.md R115). -/
def be16 (v : U16) : List Byte := [v.extractLsb' 8 8, v.extractLsb' 0 8]

/-- `BE32` (spec/41_raster_serializer.md R116). -/
def be32 (v : U32) : List Byte :=
  [v.extractLsb' 24 8, v.extractLsb' 16 8, v.extractLsb' 8 8, v.extractLsb' 0 8]

/-- The bytes U4 makes of PK: `BE16(PK[15:0])` or `BE32(PK)` (spec/41_raster_serializer.md R133, R145). -/
def serialize (f : OutputFormat) (pk : U32) : List Byte :=
  match f with
  | .rgb565   => be16 (pk.extractLsb' 0 16)
  | .argb8888 => be32 pk

/-- `encpix` (spec/41_raster_serializer.md R118): the bytes of one pixel. -/
def encpix (f : OutputFormat) (c : Channels) (hasAlpha : Bool) : List Byte :=
  match f with
  | .rgb565   => be16 (enc565 c.red c.green c.blue)
  | .argb8888 => be32 (enc8888 (c.alphaOr255 hasAlpha) c.red c.green c.blue)

end Sys2Proof.Machine
end

