-- ==== Sys2Proof/Machine/Ops.lean ====
section
/-! DEFINITION. The named operations over memory, the pending set and the registers, the primitives PixRead and MemWrite
(spec/20_memory.md §2), the error entry (spec/60_exceptions.md R160) and the reset (spec/70_reset_and_hazards.md R175). -/

namespace Sys2Proof.Machine

/-! ## Outcomes -/

/-- Go on with `f` where `r` is a next state; a stop stays as it is. -/
def andThen (r : Result) (f : State → Result) : Result :=
  match r with
  | .next s    => f s
  | .fault e   => .fault e
  | .refused e => .refused e

/-- The next state of an outcome, if it is one. -/
def nextState : Result → Option State
  | .next s    => some s
  | .fault _   => none
  | .refused _ => none

/-! ## Sparse maps and memory -/

/-- Put `v` at key `k`, keeping the keys sorted. -/
def insertKey {α : Type} (k : Nat) (v : α) : List (Nat × α) → List (Nat × α)
  | [] => [(k, v)]
  | p :: t => if k < p.1 then (k, v) :: p :: t else if k = p.1 then (k, v) :: t else p :: insertKey k v t

/-- Take key `k` out. -/
def eraseKey {α : Type} (k : Nat) : List (Nat × α) → List (Nat × α)
  | [] => []
  | p :: t => if k = p.1 then eraseKey k t else p :: eraseKey k t

/-- The byte memory holds at an offset; none where nothing has written it (log 7). -/
def Memory.read (m : Memory) (off : Nat) : Option Byte := lookup m off

/-- Write one byte. -/
def Memory.write (m : Memory) (off : Nat) (v : Byte) : Memory := insertKey off v m

/-- Forget what stands at an offset. -/
def Memory.erase (m : Memory) (off : Nat) : Memory := eraseKey off m

/-- Write every byte of `src` into `m`. -/
def Memory.overlay (m : Memory) : Memory → Memory
  | [] => m
  | p :: t => Memory.overlay (Memory.write m p.1 p.2) t

/-- The first `n` bytes from offset `off` on: the output stream `OUT[0 .. n)` for `off = 0` (spec/20_memory.md R61). -/
def Memory.slice (m : Memory) (off : Nat) : Nat → List (Option Byte)
  | 0     => []
  | n + 1 => Memory.read m off :: Memory.slice m (off + 1) n

/-- Two bytes read as one big-endian u16 (spec/20_memory.md R50). -/
def Memory.readBe16 (m : Memory) (off : Nat) : Option U16 :=
  match Memory.read m off, Memory.read m (off + 1) with
  | some hi, some lo => some (hi ++ lo)
  | _, _ => none

/-- Two bytes read as one little-endian u16 (spec/20_memory.md R50). -/
def Memory.readLe16 (m : Memory) (off : Nat) : Option U16 :=
  match Memory.read m off, Memory.read m (off + 1) with
  | some lo, some hi => some (hi ++ lo)
  | _, _ => none

/-- Four bytes read as one big-endian u32 (spec/20_memory.md R50). -/
def Memory.readBe32 (m : Memory) (off : Nat) : Option U32 :=
  match Memory.readBe16 m off, Memory.readBe16 m (off + 2) with
  | some hi, some lo => some (hi ++ lo)
  | _, _ => none

/-- Four bytes read as one little-endian u32 (spec/20_memory.md R50). -/
def Memory.readLe32 (m : Memory) (off : Nat) : Option U32 :=
  match Memory.readLe16 m off, Memory.readLe16 m (off + 2) with
  | some lo, some hi => some (hi ++ lo)
  | _, _ => none

/-! ## The pending set -/

/-- The set `{0, ..., n - 1}` (spec/41_raster_serializer.md R139). -/
def Pending.full (n : Nat) : Pending := if n = 0 then [] else [⟨0, n⟩]

/-- Is `i` pending? -/
def Pending.has (i : Nat) : Pending → Bool
  | [] => false
  | p :: t => (decide (p.lo ≤ i) && decide (i < p.hi)) || Pending.has i t

/-- One span without `i`. -/
def Span.cut (i : Nat) (p : Span) : List Span :=
  if p.lo ≤ i ∧ i < p.hi then
    (if p.lo < i then [⟨p.lo, i⟩] else []) ++ (if i + 1 < p.hi then [⟨i + 1, p.hi⟩] else [])
  else [p]

/-- `PEND minus { i }`. -/
def Pending.remove (i : Nat) : Pending → Pending
  | [] => []
  | p :: t => p.cut i ++ Pending.remove i t

/-- How many pixels are pending. -/
def Pending.count : Pending → Nat
  | [] => 0
  | p :: t => (p.hi - p.lo) + Pending.count t

/-- The `k`-th pending index in rising order, counting from 0. -/
def Pending.nth : Pending → Nat → Option Nat
  | [], _ => none
  | p :: t, k => if k < p.hi - p.lo then some (p.lo + k) else Pending.nth t (k - (p.hi - p.lo))

/-- The least pending index (spec/41_raster_serializer.md R135). -/
def Pending.least : Pending → Option Nat
  | [] => none
  | p :: _ => some p.lo

/-! ## Named updates of the registers -/

/-- START's latches (spec/41_raster_serializer.md R139): FMT_R from CMD, W_R, H_R and A_R from SRC. -/
def State.withLatches (c : Byte) (s : State) : State :=
  { s with fmtR := c, wR := s.src.width, hR := s.src.height, aR := s.src.hasAlpha }

/-- ERROR with a code, and LEN = 0. -/
def State.withError (e : ErrCode) (s : State) : State :=
  { s with errCode := e, convState := .error, len := 0#64 }

/-- What an accepted START writes for a length of `n` bytes (spec/41_raster_serializer.md R139). The model's own fields start
the conversion with no host write outstanding. -/
def State.withAccepted (n : Nat) (s : State) : State :=
  { s with
    len := BitVec.ofNat 64 n, errCode := .none, x := 0#32, y := 0#32
    pend := Pending.full (s.wR.toNat * s.hR.toNat)
    convState := if n = 0 then .done else .busy
    outOld := s.out, view := s.src, late := [], doneRead := false }

/-- PIX and PK. -/
def State.withPixel (p : Rgba) (w : U32) (s : State) : State := { s with pix := p, pk := w }

/-- PEND. -/
def State.withPend (p : Pending) (s : State) : State := { s with pend := p }

/-- The cursor (X, Y). -/
def State.withCursor (x y : U32) (s : State) : State := { s with x := x, y := y }

/-- OUT and the model's two companions of it. -/
def State.withBuffers (out old late : Memory) (s : State) : State :=
  { s with out := out, outOld := old, late := late }

/-- STATUS.STATE. -/
def State.withConvState (c : ConvState) (s : State) : State := { s with convState := c }

/-- SRC. -/
def State.withSrc (src : Source) (s : State) : State := { s with src := src }

/-- The inputs still to come. -/
def State.withInputs (i : List Input) (s : State) : State := { s with inputs := i }

/-- One more value the host has read. -/
def State.observed (o : Observation) (s : State) : State := { s with seen := o :: s.seen }

/-- The draw counter. -/
def State.withDraws (n : Nat) (s : State) : State := { s with draws := n }

/-- Whether the host has read DONE. -/
def State.withDoneRead (b : Bool) (s : State) : State := { s with doneRead := b }

/-! ## The primitives -/

/-- `PixRead(x, y)` (spec/20_memory.md R47), undefined outside the latched grid. The source is the one START found, fixed for
the whole conversion (R184, log 25), and the channel kind is the one START latched, so a later change of SRC's declared size or kind is
not seen (R64, log 6). -/
def pixRead (x y : Nat) (s : State) : Option Channels :=
  if x < s.wR.toNat ∧ y < s.hR.toNat then some (asChannels s.aR (s.view.stored x y)) else none

/-- `MemWrite(off, 1, v)` (spec/20_memory.md R48), issued only with `off < LEN` (R55). -/
def memWrite (off : Nat) (v : Byte) (s : State) : Result :=
  if off < s.len.toNat then .next (s.withBuffers (Memory.write s.out off v) s.outOld s.late)
  else .fault .memWriteOutsideOut

/-- The MemWrites of a list of bytes in ascending offset (spec/20_memory.md R58). -/
def memWriteBytes (off : Nat) : List Byte → State → Result
  | [], s => .next s
  | v :: vs, s => andThen (memWrite off v s) (memWriteBytes (off + 1) vs)

/-- The error entry `raise E(info)` (spec/60_exceptions.md R160). It saves nothing and moves control nowhere, and there is no
return from it (R162): the next START or a reset leaves ERROR. -/
def raiseError (e : ErrCode) (s : State) : State := s.withError e

/-- Reset (spec/70_reset_and_hazards.md R175, R191): STATUS and LEN to 0, every other register to the value of
`State.resetWith` (log 3), SRC and OUT untouched but for host writes still outstanding, which land (log 9). -/
def applyReset (s : State) : State :=
  { State.resetWith s.cfg with
    src := s.src, out := Memory.overlay s.out s.late, inputs := s.inputs, seen := s.seen, draws := s.draws }

end Sys2Proof.Machine
end

