-- ==== Sys2Proof/Machine/Start.lean ====
section
/-! DEFINITION. START and the two host commands (spec/41_raster_serializer.md R139 to R142, spec/60_exceptions.md R150 to
R152, R159, R166). -/

namespace Sys2Proof.Machine

/-- The exact output length `W * H * bpp`, no wrap (spec/41_raster_serializer.md R140). -/
def conversionLength (w h : U32) (f : OutputFormat) : Nat := w.toNat * h.toNat * bpp f

/-- START(c) (R139): the latches, then the tag check, then the exact length check, then acceptance, in that order (R159). A CMD
write while BUSY is the fault of R166. -/
def start (c : Byte) (s : State) : Result :=
  if s.convState = .busy then .fault .hostProtocolViolation
  else
    match formatOfTag c with
    | none => .next (raiseError .unsupportedFormat (s.withLatches c))
    | some f =>
      if s.cfg.lenMax < conversionLength s.src.width s.src.height f then
        .next (raiseError .invalidDimensions (s.withLatches c))
      else .next ((s.withLatches c).withAccepted (conversionLength s.src.width s.src.height f))

/-- `PACK.RGB565` (R141): START(0x00). The pixel steps that follow are the block's own (Machine/Raster.lean). -/
def execPackRgb565 (s : State) : Result := start 0x00#8 s

/-- `PACK.ARGB8888` (R142): START(0x01). The pixel steps that follow are the block's own (Machine/Raster.lean). -/
def execPackArgb8888 (s : State) : Result := start 0x01#8 s

/-- A CMD write with a reserved tag (spec/30_encoding.md R72): START with it, which raises UnsupportedFormat. -/
def startReserved (c : Byte) (s : State) : Result := start c s

end Sys2Proof.Machine
end

