-- ==== Sys2Proof/Machine/Dispatch.lean ====
section
/-! DEFINITION. One arm per constructor of Instr. -/

namespace Sys2Proof.Machine

def exec (i : Instr) (s : State) : Host.Outcome State Fault Refusal :=
  match i with
  | .packRgb565 => Sys2Proof.Machine.execPackRgb565 s
  | .packArgb8888 => Sys2Proof.Machine.execPackArgb8888 s

end Sys2Proof.Machine
end

