-- ==== Sys2Proof/Machine/HostPort.lean ====
section
/-! DEFINITION. The host's side: register reads and ignored writes (spec/10_state.md R34, spec/41_raster_serializer.md R143,
R144), the host's accesses of OUT (spec/20_memory.md R60, spec/70_reset_and_hazards.md R183, R186) and of SRC (R184), and the
textual forms of spec/30_encoding.md R85 to R87. -/

namespace Sys2Proof.Machine

/-- `READ STATUS` (R143). It changes no state of the block; the model notes whether the host has now read DONE. -/
def readStatus (s : State) : State :=
  (s.withDoneRead (s.doneRead || decide (s.convState = .done))).observed (.status (statusWord s))

/-- `READ LEN` (R144). -/
def readLen (s : State) : State := s.observed (.len s.len)

/-- `POLL` (spec/30_encoding.md R87): READ STATUS, and again while it says BUSY, the block taking a turn in between
(log 16). -/
def poll (s : State) : State :=
  if s.convState = .busy then (readStatus s).withInputs (.block :: .access .poll :: s.inputs) else readStatus s

/-- The index of the pixel a byte of OUT belongs to, if the latched tag has a size (spec/20_memory.md R53). -/
def pixelOfOffset (off : Nat) (s : State) : Option Nat :=
  (formatOfTag s.fmtR).map fun f => off / bpp f

/-- Is the pixel of this byte still to be processed by a running conversion? -/
def bytePending (off : Nat) (s : State) : Bool :=
  match pixelOfOffset off s with
  | none   => false
  | some i => decide (s.convState = .busy) && Pending.has i s.pend

/-- The byte a running conversion writes at an offset: byte `off mod bpp` of pixel `off div bpp`
(spec/41_raster_serializer.md R124), from what START latched. -/
def conversionByte (off : Nat) (s : State) : Option Byte :=
  match formatOfTag s.fmtR with
  | none => none
  | some f =>
    (encpix f (asChannels s.aR (s.view.stored (off / bpp f % s.wR.toNat) (off / bpp f / s.wR.toNat))) s.aR)[off % bpp f]?

/-- What a memory holds at an offset; the host's own unknown byte where nothing has written it (log 7). -/
def hostByte (m : Memory) (off : Nat) : Byte := (Memory.read m off).getD (Config.outBefore off)

/-- The final value of a byte of OUT: what stands there, or, while its pixel is pending, what the conversion will leave. -/
def finalByte (off : Nat) (s : State) : Byte :=
  if bytePending off s then
    match Memory.read s.late off with
    | some v => v
    | none   => (conversionByte off s).getD (hostByte s.out off)
  else hostByte s.out off

/-- A host read of a byte of OUT. Before the host has read DONE, a byte below LEN is its old or its final value, as `pick` says
(R60, R183, log 8). -/
def readOut (pick : Bool) (off : Nat) (s : State) : Byte :=
  if off < s.len.toNat ∧ s.doneRead = false then
    if pick then finalByte off s else hostByte s.outOld off
  else hostByte s.out off

/-- A host write of a byte of OUT. While BUSY, a byte below LEN may land before or after the block's write of it, as `landsAfter`
says (R186, log 9); else it is a plain write. DESIGN CHOICE, unsafe (log 24): two host writes of one byte take effect in the order the
host made them, which R186 leaves open. So a later write that lands before the block's takes an earlier waiting one out, and a later
one that lands after it takes its place. -/
def writeOut (landsAfter : Bool) (off : Nat) (v : Byte) (s : State) : State :=
  if s.convState = .busy ∧ off < s.len.toNat then
    if bytePending off s then
      if landsAfter then s.withBuffers s.out s.outOld (Memory.write s.late off v)
      else s.withBuffers (Memory.write s.out off v) (Memory.write s.outOld off v) (Memory.erase s.late off)
    else
      if landsAfter then s.withBuffers (Memory.write s.out off v) s.outOld s.late
      else s.withBuffers s.out (Memory.write s.outOld off v) s.late
  else s.withBuffers (Memory.write s.out off v) (Memory.write s.outOld off v) s.late

/-- Does `src` give every pixel of the running conversion the value it has? Compared are the pixels that both the latched grid and
`src` declare, as a PixRead delivers them, alpha only where both sides have one (R184, log 12). -/
def keepsPixelValues (src : Source) (s : State) : Bool :=
  decide (∀ y, y < min s.hR.toNat src.height.toNat → ∀ x, x < min s.wR.toNat src.width.toNat →
    asChannels (s.aR && src.hasAlpha) (src.stored x y) = asChannels (s.aR && src.hasAlpha) (s.view.stored x y))

/-- The host puts another source in place. A change of the declared size or kind is never seen by a running conversion
(spec/20_memory.md R64); a change of a pixel value while BUSY is outside the model (R184, log 12). -/
def supplySrc (src : Source) (s : State) : Result :=
  if s.convState = .busy ∧ keepsPixelValues src s = false then .refused .sourceChangedWhileBusy
  else .next (s.withSrc src)

/-- One action of the host beside a CMD write. The draws of R183 and R186 are free values. -/
def hostAccess (a : HostAccess) (s : State) : Result :=
  match a with
  | .readStatus     => .next (readStatus s)
  | .readLen        => .next (readLen s)
  | .poll           => .next (poll s)
  | .writeStatus _  => .next s
  | .writeLen _     => .next s
  | .readOut off    =>
    .next ((s.observed (.outByte off (readOut (Config.drawBit s.draws) off.toNat s))).withDraws (s.draws + 1))
  | .writeOut off v => .next ((writeOut (Config.drawBit s.draws) off.toNat v s).withDraws (s.draws + 1))
  | .supplySrc src  => supplySrc src s

/-! ## Textual forms -/

/-- The error kinds that arise on the host before the block is started: names only, the block never raises them
(spec/00_scope.md R9, spec/60_exceptions.md R156). -/
inductive CallerError where
  | usageError
  | sourceNotFound
  | decodeError
deriving DecidableEq, Repr

/-- A format name of the CLI, in any letter case (spec/30_encoding.md R85): the command it stands for, or UsageError. -/
def commandOfName (name : List Char) : Except CallerError Instr :=
  if name.map Char.toLower = ['r', 'g', 'b', '5', '6', '5'] then .ok .packRgb565
  else if name.map Char.toLower = ['a', 'r', 'g', 'b', '8', '8', '8', '8'] then .ok .packArgb8888
  else .error .usageError

/-- `CONVERT <fmt>` (spec/30_encoding.md R87): START, then POLL. -/
def convert (i : Instr) : List Input := [.command (encode i), .access .poll]

end Sys2Proof.Machine
end

