-- ==== Sys2Proof/Machine/Raster.lean ====
section
/-! DEFINITION. U3, the raster iterator, and the pixel step, the block's only autonomous step
(spec/41_raster_serializer.md R119, R133 to R136, R146). -/

namespace Sys2Proof.Machine

/-- `order(W, H)` (R119): every row before the next, left to right within a row. -/
def rasterOrder (w h : Nat) : List (Nat × Nat) :=
  (List.range h).flatMap fun y => (List.range w).map fun x => (x, y)

/-- ADVANCE (R134). -/
def advance (s : State) : State :=
  if s.x.toNat + 1 < s.wR.toNat then s.withCursor (s.x + 1#32) s.y else s.withCursor 0#32 (s.y + 1#32)

/-- The cursor after a pixel step under `ISSUE_ORDER = Any`: free values (spec/10_state.md R29, log 4). -/
def freeCursor (s : State) : State :=
  (s.withCursor (Config.freeCursorX s.draws) (Config.freeCursorY s.draws)).withDraws (s.draws + 1)

/-- Completion (R136): DONE in the step that empties PEND. -/
def completeIfEmpty (s : State) : State :=
  if s.pend = [] then s.withConvState .done else s

/-- The host writes outstanding for `n` bytes from `off` on land, now that the block has written them
(spec/70_reset_and_hazards.md R186, log 9). Nothing happens where the host kept the hazard. -/
def landLate (off : Nat) : Nat → State → State
  | 0, s => s
  | n + 1, s =>
    match Memory.read s.late off with
    | none => landLate (off + 1) n s
    | some v =>
      landLate (off + 1) n (s.withBuffers (Memory.write s.out off v) s.outOld (Memory.erase s.late off))

/-- The part of a pixel step that names a pixel `(x, y)` (R133): read it, latch it, encode it, write its bytes, and take it out
of PEND. -/
def processPixel (x y : Nat) (s : State) : Result :=
  match pixRead x y s, formatOfTag s.fmtR with
  | none, _ => .fault .pixReadOutsideGrid
  | some _, none => .fault .formatNotDefined
  | some c, some f =>
    andThen
      (memWriteBytes ((y * s.wR.toNat + x) * bpp f) (serialize f (packedWord f (latchChannels s.aR c)))
        (s.withPixel (latchChannels s.aR c) (packedWord f (latchChannels s.aR c))))
      fun t =>
        .next ((landLate ((y * s.wR.toNat + x) * bpp f) (bpp f) t).withPend
          (Pending.remove (y * s.wR.toNat + x) t.pend))

/-- The pixel step under `ISSUE_ORDER = RowMajor` (R133): the pixel under the cursor, then ADVANCE. -/
def pixelStepRowMajor (s : State) : Result :=
  andThen (processPixel s.x.toNat s.y.toNat s) fun t => .next (completeIfEmpty (advance t))

/-- The pixel step under `ISSUE_ORDER = Any` (R133) with the choice `i`: defined for every `i` in PEND. -/
def pixelStepChoosing (i : Nat) (s : State) : Result :=
  if Pending.has i s.pend then
    andThen (processPixel (i % s.wR.toNat) (i / s.wR.toNat) s) fun t => .next (completeIfEmpty (freeCursor t))
  else .fault .noPendingPixel

/-- The choice of one step under `ISSUE_ORDER = Any`: a free value among the pending indices (log 2). -/
def chosenIndex (s : State) : Option Nat :=
  Pending.nth s.pend (Config.drawIndex s.draws % Pending.count s.pend)

/-- PIXEL_STEP (R133). It is enabled exactly when STATUS.STATE = BUSY. -/
def pixelStep (s : State) : Result :=
  match s.cfg.issueOrder with
  | .rowMajor => pixelStepRowMajor s
  | .any =>
    match chosenIndex s with
    | none   => .fault .noPendingPixel
    | some i => pixelStepChoosing i s

/-- A turn of the block: its pixel step while BUSY; in IDLE, DONE and ERROR it has no step and changes nothing (R147). -/
def blockTurn (s : State) : Result :=
  if s.convState = .busy then pixelStep s else .next s

end Sys2Proof.Machine
end

