-- ==== Sys2Proof/Machine/Step.lean ====
section
/-! DEFINITION. One step of the machine: the next input, or the block's own step when no input is left. -/

namespace Sys2Proof.Machine

/-- A write of the byte `c` to CMD: decode it and run what it says (spec/30_encoding.md R74). -/
def writeCmd (c : Byte) (s : State) : Result :=
  match decode c with
  | .instr i    => exec i s
  | .reserved d => startReserved d s

/-- One step. The input at the head of the list says who moves (log 10); with none left the block moves, and in a quiescent state
nothing changes (spec/41_raster_serializer.md R147). -/
def step (s : State) : Host.Outcome State Fault Refusal :=
  match s.inputs with
  | [] => blockTurn s
  | .block :: rest => blockTurn (s.withInputs rest)
  | .reset :: rest => .next (applyReset (s.withInputs rest))
  | .access a :: rest => hostAccess a (s.withInputs rest)
  | .command c :: rest => writeCmd c (s.withInputs rest)

/-- The state in which the very next step is the host's write of the command byte: a command is one byte (spec/30_encoding.md
R73), and the block fetches nothing (spec/20_memory.md R46, log 15). -/
def State.withFetchWord (s : State) (nbits w : Nat) : State :=
  s.withInputs (.command (BitVec.ofNat 8 (w % 2 ^ nbits)) :: s.inputs)

end Sys2Proof.Machine
end

