-- ==== Sys2Proof/Machine/Pack.lean ====
section
/-! DEFINITION. The reference function `pack`, normative for the output bytes (spec/41_raster_serializer.md R120). -/

namespace Sys2Proof.Machine

/-- The bytes of every pixel in raster order (R120). -/
def packBytes (f : OutputFormat) (src : Source) : List Byte :=
  (rasterOrder src.width.toNat src.height.toNat).flatMap fun p => encpix f (src.pixel p.1 p.2) src.hasAlpha

/-- `pack(SRC, tag)` (R120): the tag check first, then the exact length check (spec/60_exceptions.md R159). -/
def pack (lenMax : Nat) (src : Source) (tag : Byte) : Except ErrCode (List Byte) :=
  match formatOfTag tag with
  | none => .error .unsupportedFormat
  | some f =>
    if lenMax < conversionLength src.width src.height f then .error .invalidDimensions
    else .ok (packBytes f src)

end Sys2Proof.Machine
end

