-- ==== Sys2Proof/Safety.lean ====
section
/-! DEFINITION. What statements speak of: the invariant of the machine (spec/10_state.md R28, R29, R31, R37), the bytes a
conversion has made final, a host that keeps the hazards (spec/70_reset_and_hazards.md R183 to R187), a run under a chosen
schedule, and the observation at the end of a run (spec/41_raster_serializer.md R149). -/

namespace Sys2Proof.Machine

/-- The source a conversion works on: the pixel values START found, under the size and kind it latched (spec/20_memory.md R64,
spec/70_reset_and_hazards.md R184). -/
def latchedSource (s : State) : Source := { s.view with width := s.wR, height := s.hR, hasAlpha := s.aR }

/-- The stored colour of pixel `i` of the running or last conversion, by linear index (spec/10_state.md R30). -/
def latchedPixelColour (i : Nat) (s : State) : Rgba := s.view.stored (i % s.wR.toNat) (i / s.wR.toNat)

/-- A source an input would supply is in canonical form. -/
def Input.wf : Input → Bool
  | .access (.supplySrc src) => src.wf
  | .access _ => true
  | .command _ => true
  | .reset => true
  | .block => true

/-- What holds while STATUS.STATE = BUSY (spec/10_state.md R29, R31, R37), but for the clause on the bytes of OUT. -/
structure BusyInv (s : State) : Prop where
  format   : ∃ f, formatOfTag s.fmtR = some f ∧ s.len.toNat = conversionLength s.wR s.hR f
  width    : 1 ≤ s.wR.toNat
  height   : 1 ≤ s.hR.toNat
  fits     : s.len.toNat ≤ s.cfg.lenMax
  nonempty : s.pend ≠ []
  inGrid   : ∀ i, Pending.has i s.pend = true → i < s.wR.toNat * s.hR.toNat
  cursor   : s.cfg.issueOrder = .rowMajor →
    s.x.toNat < s.wR.toNat ∧ s.y.toNat < s.hR.toNat ∧
      s.pend = [⟨s.y.toNat * s.wR.toNat + s.x.toNat, s.wR.toNat * s.hR.toNat⟩]

/-- The invariant of the machine. -/
structure Inv (s : State) : Prop where
  config      : s.cfg.wf = true
  outForm     : Memory.wf s.out = true
  oldForm     : Memory.wf s.outOld = true
  lateForm    : Memory.wf s.late = true
  srcForm     : s.src.wf = true
  viewForm    : s.view.wf = true
  inputsForm  : ∀ i ∈ s.inputs, i.wf = true
  pendForm    : Pending.wf s.pend = true
  /-- R28: ERR is nonzero exactly in ERROR. -/
  errCode     : s.errCode ≠ .none ↔ s.convState = .error
  busy        : s.convState = .busy → BusyInv s
  /-- R26, R27: the last conversion completed, LEN is its length. -/
  done        : s.convState = .done →
    s.pend = [] ∧ s.len.toNat ≤ s.cfg.lenMax ∧
      ∃ f, formatOfTag s.fmtR = some f ∧ s.len.toNat = conversionLength s.wR s.hR f
  /-- R27, R160: LEN is 0 after reset and after a failed START. -/
  quiet       : s.convState = .idle ∨ s.convState = .error → s.len = 0#64
  lateQuiet   : s.convState ≠ .busy → s.late = []
  latePending : ∀ off v, Memory.read s.late off = some v → bytePending off s = true

/-- R37, last clause: every byte of a pixel that is no longer pending holds its final value, the one of `pack`. -/
def BytesFinal (s : State) : Prop :=
  ∀ f, formatOfTag s.fmtR = some f →
    ∀ i, i < s.wR.toNat * s.hR.toNat → Pending.has i s.pend = false →
      ∀ k, k < bpp f → Memory.read s.out (i * bpp f + k) = (packBytes f (latchedSource s))[i * bpp f + k]?

/-- The invariant of a machine whose host has kept the hazards since the last accepted START. -/
structure CleanInv (s : State) : Prop where
  inv    : Inv s
  bytes  : s.convState = .busy ∨ s.convState = .done → BytesFinal s
  noLate : s.late = []

/-- The next input keeps the hazard on OUT (R186): while a conversion runs or its bytes stand in OUT, the host does not write
OUT[0 .. LEN). The hazard on SRC (R184) needs no clause: a step that breaks it is refused. -/
def keepsHazards (s : State) : Prop :=
  match s.inputs with
  | .access (.writeOut off _) :: _ => s.convState = .busy ∨ s.convState = .done → s.len.toNat ≤ off.toNat
  | _ => True

/-- A run of the pixel step under `ISSUE_ORDER = Any` with the choices given (spec/41_raster_serializer.md R133, R137). -/
def runChoices : List Nat → State → Result
  | [], s => .next s
  | i :: is, s => andThen (pixelStepChoosing i s) (runChoices is)

/-- R149: a run ends at the first state after a START in which STATE is DONE or ERROR. -/
def endOfRun (s : State) : Bool := decide (s.convState = .done) || decide (s.convState = .error)

/-- R149: the observation of a run, `(STATUS, LEN, OUT[0 .. LEN))`. -/
def observation (s : State) : Byte × U64 × List (Option Byte) :=
  (statusWord s, s.len, Memory.slice s.out 0 s.len.toNat)

end Sys2Proof.Machine
end

