-- ==== Sys2Proof/Certificates/Slice0/Obligations.lean ====
section
/-! DEFINITION. The statements for the provers. Each docstring names the rule of spec/ it formalises. A statement that speaks of
BUSY states takes the invariant `Inv` (or `CleanInv`) as a premise, and both are stated to be kept by every step. -/

open Sys2Proof Sys2Proof.Machine

/-! ## Encoding (spec/30_encoding.md) -/

/-- R74: decode is total and decided by the tag alone. -/
def Obligations.DecodeOfEveryByte : Prop :=
  ∀ c : Byte,
    (c.toNat = 0 → decode c = .instr .packRgb565) ∧
    (c.toNat = 1 → decode c = .instr .packArgb8888) ∧
    (2 ≤ c.toNat → decode c = .reserved c)

/-- R71, R74: encode and decode agree in both directions. -/
def Obligations.DecodeEncodeAgree : Prop :=
  (∀ i : Instr, decode (encode i) = .instr i) ∧
  (∀ (c : Byte) (i : Instr), decode c = .instr i → encode i = c) ∧
  ∀ c d : Byte, decode c = .reserved d → c = d ∧ ∀ i : Instr, encode i ≠ c

/-- R71, R72: words of the opcode table, and reserved words. -/
def Obligations.TableWordsDecode : Prop :=
  decodeTableWord 8 0b00000000 = some .packRgb565 ∧ decodeTableWord 8 0b00000001 = some .packArgb8888 ∧
  decodeTableWord 8 0b00000010 = none ∧ decodeTableWord 8 0b11111111 = none

/-- R73, R74: a step whose input is a CMD write is that write, with the input consumed and nothing else added; where its byte decodes
to an instruction it runs that instruction; and the state `withFetchWord` makes (log 15) runs the instruction of the table's word in
the very next step. -/
def Obligations.StepRunsDecodedInstruction : Prop :=
  (∀ (s : State) (c : Byte) (rest : List Input), s.inputs = .command c :: rest →
    step s = writeCmd c { s with inputs := rest } ∧
      ∀ i : Instr, decode c = .instr i → step s = exec i { s with inputs := rest }) ∧
  ∀ (s : State) (i : Instr), step (s.withFetchWord 8 (encode i).toNat) = exec i s

/-! ## START (spec/41_raster_serializer.md R139 to R142, spec/60_exceptions.md) -/

/-- R139, R141: PACK.RGB565 completes: what an accepted START writes, and that it writes nothing else. The model's own fields start the
conversion (log 8, log 9, log 25). -/
def Obligations.PackRgb565Accepted : Prop :=
  ∀ s : State, s.cfg.wf = true → s.convState ≠ .busy →
    s.src.width.toNat * s.src.height.toNat * 2 ≤ s.cfg.lenMax →
    ∃ (p : Pending) (n : U64), n.toNat = s.src.width.toNat * s.src.height.toNat * 2 ∧
      (∀ j, Pending.has j p = true ↔ j < s.src.width.toNat * s.src.height.toNat) ∧
      exec .packRgb565 s =
        .next { s with
          fmtR := 0x00#8, wR := s.src.width, hR := s.src.height, aR := s.src.hasAlpha
          len := n, errCode := .none, x := 0#32, y := 0#32, pend := p
          convState := if s.src.width.toNat * s.src.height.toNat * 2 = 0 then .done else .busy
          outOld := s.out, view := s.src, late := [], doneRead := false }

/-- R139, R142: PACK.ARGB8888 completes: what an accepted START writes, and that it writes nothing else. The model's own fields start the
conversion (log 8, log 9, log 25). -/
def Obligations.PackArgb8888Accepted : Prop :=
  ∀ s : State, s.cfg.wf = true → s.convState ≠ .busy →
    s.src.width.toNat * s.src.height.toNat * 4 ≤ s.cfg.lenMax →
    ∃ (p : Pending) (n : U64), n.toNat = s.src.width.toNat * s.src.height.toNat * 4 ∧
      (∀ j, Pending.has j p = true ↔ j < s.src.width.toNat * s.src.height.toNat) ∧
      exec .packArgb8888 s =
        .next { s with
          fmtR := 0x01#8, wR := s.src.width, hR := s.src.height, aR := s.src.hasAlpha
          len := n, errCode := .none, x := 0#32, y := 0#32, pend := p
          convState := if s.src.width.toNat * s.src.height.toNat * 4 = 0 then .done else .busy
          outOld := s.out, view := s.src, late := [], doneRead := false }

/-- R139, R149 (frame): a START of any byte that answers a next state leaves every byte of OUT, the source, the parameters, PIX and
PK as they were. -/
def Obligations.StartWritesNoByteOfOut : Prop :=
  ∀ (c : Byte) (s t : State), writeCmd c s = .next t →
    (∀ a, Memory.read t.out a = Memory.read s.out a) ∧
      t.src = s.src ∧ t.cfg = s.cfg ∧ t.pix = s.pix ∧ t.pk = s.pk ∧
      t.inputs = s.inputs ∧ t.seen = s.seen ∧ t.draws = s.draws

/-- R151: a reserved tag raises UnsupportedFormat, whatever the source, before any write. -/
def Obligations.ReservedTagRaisesUnsupportedFormat : Prop :=
  ∀ (s : State) (c : Byte), 2 ≤ c.toNat → s.convState ≠ .busy →
    writeCmd c s =
      .next { s with
        fmtR := c, wR := s.src.width, hR := s.src.height, aR := s.src.hasAlpha
        errCode := .unsupportedFormat, convState := .error, len := 0#64 }

/-- R152: a length above LEN_MAX raises InvalidDimensions, before any write. -/
def Obligations.OversizedSourceRaisesInvalidDimensions : Prop :=
  ∀ (i : Instr) (s : State), s.convState ≠ .busy →
    s.cfg.lenMax < s.src.width.toNat * s.src.height.toNat * bpp (formatOf i) →
    exec i s =
      .next { s with
        fmtR := encode i, wR := s.src.width, hR := s.src.height, aR := s.src.hasAlpha
        errCode := .invalidDimensions, convState := .error, len := 0#64 }

/-- R140: InvalidDimensions is raised exactly when the exact length exceeds LEN_MAX, and an accepted length fits LEN. -/
def Obligations.LengthCheckIsExact : Prop :=
  ∀ (i : Instr) (s : State), s.cfg.wf = true → s.convState ≠ .busy →
    ∃ t, exec i s = .next t ∧
      (t.errCode = .invalidDimensions ↔
        s.cfg.lenMax < s.src.width.toNat * s.src.height.toNat * bpp (formatOf i)) ∧
      (t.errCode ≠ .invalidDimensions →
        t.len.toNat = s.src.width.toNat * s.src.height.toNat * bpp (formatOf i)) ∧
      s.src.width.toNat * s.src.height.toNat * bpp (formatOf i) < 2 ^ 66

/-- R159: the checks of one START, in order: the tag, the length, zero area. -/
def Obligations.StartChecksInOrder : Prop :=
  ∀ (c : Byte) (s : State), s.convState ≠ .busy →
    ∃ t, writeCmd c s = .next t ∧
      (2 ≤ c.toNat → t.errCode = .unsupportedFormat ∧ t.convState = .error) ∧
      ∀ f, formatOfTag c = some f →
        (s.cfg.lenMax < s.src.width.toNat * s.src.height.toNat * bpp f →
          t.errCode = .invalidDimensions ∧ t.convState = .error) ∧
        (s.src.width.toNat * s.src.height.toNat * bpp f ≤ s.cfg.lenMax →
          t.errCode = .none ∧
            (s.src.width = 0#32 ∨ s.src.height = 0#32 → t.convState = .done ∧ t.len = 0#64) ∧
            (s.src.width ≠ 0#32 ∧ s.src.height ≠ 0#32 → t.convState = .busy))

/-- R160: what the error entry leaves: the code, ERROR, LEN = 0; the latches of START are the only other change; the block is then
quiescent. -/
def Obligations.ErrorEntryIsPrecise : Prop :=
  ∀ (c : Byte) (s t : State), writeCmd c s = .next t → t.convState = .error →
    t = { s with
          fmtR := c, wR := s.src.width, hR := s.src.height, aR := s.src.hasAlpha
          errCode := if 2 ≤ c.toNat then .unsupportedFormat else .invalidDimensions
          convState := .error, len := 0#64 } ∧
      blockTurn t = .next t

/-- R162: a START from ERROR behaves exactly as a START from IDLE. -/
def Obligations.StartFromErrorIsStartFromIdle : Prop :=
  ∀ (c : Byte) (s : State), s.convState = .error →
    writeCmd c s = writeCmd c { s with convState := .idle, errCode := .none }

/-- R155: a failed START, tried again with the same tag and source, fails in the same way. -/
def Obligations.FailedStartFailsAgain : Prop :=
  ∀ (c : Byte) (s t : State), writeCmd c s = .next t → t.convState = .error → writeCmd c t = .next t

/-- R166: a CMD write while BUSY is the fault HostProtocolViolation, for every byte, and nothing clears it. -/
def Obligations.CommandWhileBusyFaults : Prop :=
  ∀ (s : State), s.convState = .busy →
    (∀ i : Instr, exec i s = .fault .hostProtocolViolation) ∧
    ∀ (c : Byte) (rest : List Input), s.inputs = .command c :: rest →
      ∀ k, Host.Core.run Sys2Proof.core (k + 1) s = .fault .hostProtocolViolation

/-! ## The pixel encoders (spec/40_pixel_encoders.md) -/

/-- R79, R106: the fields of the RGB565 word are the top bits of the channels. -/
def Obligations.Enc565FieldsAreTopBits : Prop :=
  ∀ r g b : Byte,
    red5 (enc565 r g b) = r.extractLsb' 3 5 ∧ green6 (enc565 r g b) = g.extractLsb' 2 6 ∧
      blue5 (enc565 r g b) = b.extractLsb' 3 5

/-- R96: the masked form is the same function. -/
def Obligations.Enc565MaskedForm : Prop :=
  ∀ r g b : Byte,
    enc565 r g b =
      ((r &&& 0xF8#8).zeroExtend 16 <<< 8) ||| ((g &&& 0xFC#8).zeroExtend 16 <<< 3) ||| (b >>> 3).zeroExtend 16

/-- R97: ENC565 depends only on the kept bits. -/
def Obligations.Enc565DependsOnKeptBits : Prop :=
  ∀ r1 g1 b1 r2 g2 b2 : Byte,
    r1.extractLsb' 3 5 = r2.extractLsb' 3 5 → g1.extractLsb' 2 6 = g2.extractLsb' 2 6 →
      b1.extractLsb' 3 5 = b2.extractLsb' 3 5 → enc565 r1 g1 b1 = enc565 r2 g2 b2

/-- R102: encoding an expansion of `v` that puts each field in the channel's top bits gives `v` back, whatever the low bits. -/
def Obligations.Enc565RequantizesToItself : Prop :=
  ∀ (v : U16) (r g b : Byte),
    r.extractLsb' 3 5 = red5 v → g.extractLsb' 2 6 = green6 v → b.extractLsb' 3 5 = blue5 v → enc565 r g b = v

/-- R103: in both encoders OR equals addition, and neither result exceeds its width; ENC565 takes every value. -/
def Obligations.EncodersDoNotOverflow : Prop :=
  (∀ r g b : Byte,
    (enc565 r g b).toNat = r.toNat / 8 * 2048 + g.toNat / 4 * 32 + b.toNat / 8 ∧
      r.toNat / 8 * 2048 + g.toNat / 4 * 32 + b.toNat / 8 ≤ 2 ^ 16 - 1) ∧
  (∀ a r g b : Byte,
    (enc8888 a r g b).toNat = a.toNat * 2 ^ 24 + r.toNat * 2 ^ 16 + g.toNat * 2 ^ 8 + b.toNat ∧
      a.toNat * 2 ^ 24 + r.toNat * 2 ^ 16 + g.toNat * 2 ^ 8 + b.toNat ≤ 2 ^ 32 - 1) ∧
  ∀ v : U16, ∃ r g b : Byte, enc565 r g b = v

/-- R101: ENC8888 is a bijection, with the fields as its inverse. -/
def Obligations.Enc8888IsLossless : Prop :=
  (∀ a r g b : Byte,
    alpha8 (enc8888 a r g b) = a ∧ red8 (enc8888 a r g b) = r ∧ green8 (enc8888 a r g b) = g ∧
      blue8 (enc8888 a r g b) = b) ∧
  ∀ v : U32, enc8888 (alpha8 v) (red8 v) (green8 v) (blue8 v) = v

/-- R81: the two bytes of an RGB565 pixel, green split across them, for a source of either kind; alpha is discarded (R94). -/
def Obligations.Rgb565PixelBytes : Prop :=
  ∀ (r g b a : Byte) (h : Bool),
    encpix .rgb565 (.rgb r g b) h = [r.extractLsb' 3 5 ++ g.extractLsb' 5 3, g.extractLsb' 2 3 ++ b.extractLsb' 3 5] ∧
    encpix .rgb565 (.rgba r g b a) h = [r.extractLsb' 3 5 ++ g.extractLsb' 5 3, g.extractLsb' 2 3 ++ b.extractLsb' 3 5]

/-- R82, R99, R100: the four bytes of an ARGB8888 pixel in the order A, R, G, B; alpha is 255 where the kind bit says that
the source has none, and the source's own where it has one. -/
def Obligations.Argb8888PixelBytes : Prop :=
  ∀ r g b a : Byte,
    encpix .argb8888 (.rgb r g b) false = [255#8, r, g, b] ∧
    encpix .argb8888 (.rgba r g b a) false = [255#8, r, g, b] ∧
    encpix .argb8888 (.rgba r g b a) true = [a, r, g, b]

/-- R115, R116: the serializers give the bytes of the word, most significant first. -/
def Obligations.SerializersAreBigEndian : Prop :=
  (∀ v : U16, ∃ b0 b1 : Byte, be16 v = [b0, b1] ∧ v.toNat = b0.toNat * 2 ^ 8 + b1.toNat) ∧
  ∀ v : U32, ∃ b0 b1 b2 b3 : Byte, be32 v = [b0, b1, b2, b3] ∧
    v.toNat = b0.toNat * 2 ^ 24 + b1.toNat * 2 ^ 16 + b2.toNat * 2 ^ 8 + b3.toNat

/-! ## The raster order and the reference function (spec/41_raster_serializer.md) -/

/-- R119: the raster order has one element per pixel, and its `n`-th is `(n mod W, n div W)`. -/
def Obligations.RasterOrderIsRowMajor : Prop :=
  ∀ w h : Nat,
    (rasterOrder w h).length = w * h ∧
    (∀ n, n < w * h → (rasterOrder w h)[n]? = some (n % w, n / w)) ∧
    ∀ x y, x < w → y < h →
      (rasterOrder w h)[y * w + x]? = some (x, y) ∧ (y * w + x) % w = x ∧ (y * w + x) / w = y

/-- R121: the length of a successful `pack`. -/
def Obligations.PackLengthIsExact : Prop :=
  ∀ (lenMax : Nat) (src : Source) (bytes : List Byte),
    (pack lenMax src 0x00#8 = .ok bytes → bytes.length = src.width.toNat * src.height.toNat * 2) ∧
    (pack lenMax src 0x01#8 = .ok bytes → bytes.length = src.width.toNat * src.height.toNat * 4)

/-- R122: a zero-area source packs to the empty list for both tags and never raises InvalidDimensions; a reserved tag still fails
with UnsupportedFormat. -/
def Obligations.ZeroAreaPacksToNothing : Prop :=
  ∀ (lenMax : Nat) (src : Source), src.width = 0#32 ∨ src.height = 0#32 →
    ∀ c : Byte,
      (c.toNat < 2 → pack lenMax src c = .ok []) ∧ (2 ≤ c.toNat → pack lenMax src c = .error .unsupportedFormat)

/-- R124: the bytes of pixel `(x, y)` stand at `(y * W + x) * bpp`. -/
def Obligations.PackBytesByOffset : Prop :=
  ∀ (lenMax : Nat) (src : Source) (c : Byte) (f : OutputFormat) (bytes : List Byte),
    formatOfTag c = some f → pack lenMax src c = .ok bytes →
    ∀ x y k, x < src.width.toNat → y < src.height.toNat → k < bpp f →
      bytes[(y * src.width.toNat + x) * bpp f + k]? = (encpix f (src.pixel x y) src.hasAlpha)[k]?

/-- R120, R139: START fails exactly as `pack` does, and accepts exactly where `pack` succeeds. -/
def Obligations.StartAgreesWithPack : Prop :=
  ∀ (c : Byte) (s : State), s.cfg.wf = true → s.convState ≠ .busy →
    ∃ t, writeCmd c s = .next t ∧
      (∀ e, pack s.cfg.lenMax s.src c = .error e → t.convState = .error ∧ t.errCode = e) ∧
      ∀ bytes, pack s.cfg.lenMax s.src c = .ok bytes →
        t.errCode = .none ∧ t.len.toNat = bytes.length ∧
          t.convState = if bytes.length = 0 then .done else .busy

/-! ## The pixel step (spec/41_raster_serializer.md R133 to R136, R147) -/

/-- R133, R134, R136 under RowMajor: the step takes the pixel under the cursor, writes its bytes at `(Y * W_R + X) * bpp` and no
other byte, and changes nothing but PIX, PK, the cursor, PEND, STATE and those bytes. Where a host write waits for one of those bytes
(R186, log 9), that write stands in the byte's place and waits no more; the writes that wait for other bytes still wait. The pixel is
read from the source START found (R184, log 25). -/
def Obligations.PixelStepRowMajorEffect : Prop :=
  ∀ s : State, Inv s → s.convState = .busy → s.cfg.issueOrder = .rowMajor →
    ∃ (f : OutputFormat) (t : State) (c : Channels), formatOfTag s.fmtR = some f ∧
      c = asChannels s.aR (s.view.stored s.x.toNat s.y.toNat) ∧
      pixelStep s = .next t ∧
      t = { s with
            pix := ⟨c.red, c.green, c.blue, c.alphaOr255 s.aR⟩
            pk := t.pk, x := t.x, y := t.y, pend := t.pend, out := t.out, late := t.late
            convState := if t.pend = [] then .done else .busy } ∧
      (f = .rgb565 → t.pk = (enc565 c.red c.green c.blue).zeroExtend 32) ∧
      (f = .argb8888 → t.pk = enc8888 (c.alphaOr255 s.aR) c.red c.green c.blue) ∧
      (s.x.toNat + 1 < s.wR.toNat → t.x.toNat = s.x.toNat + 1 ∧ t.y = s.y) ∧
      (s.wR.toNat ≤ s.x.toNat + 1 → t.x = 0#32 ∧ t.y.toNat = s.y.toNat + 1) ∧
      (∀ j, Pending.has j t.pend = (Pending.has j s.pend && decide (j ≠ s.y.toNat * s.wR.toNat + s.x.toNat))) ∧
      (∀ k, k < bpp f →
        Memory.read t.out ((s.y.toNat * s.wR.toNat + s.x.toNat) * bpp f + k) =
          (Memory.read s.late ((s.y.toNat * s.wR.toNat + s.x.toNat) * bpp f + k)).or ((encpix f c s.aR)[k]?)) ∧
      (∀ k, k < bpp f → Memory.read t.late ((s.y.toNat * s.wR.toNat + s.x.toNat) * bpp f + k) = none) ∧
      ∀ a, a < (s.y.toNat * s.wR.toNat + s.x.toNat) * bpp f ∨
          (s.y.toNat * s.wR.toNat + s.x.toNat) * bpp f + bpp f ≤ a →
        Memory.read t.out a = Memory.read s.out a ∧ Memory.read t.late a = Memory.read s.late a

/-- R133, R136 under Any: every pending pixel can be chosen, and the machine's own step is one of those choices; the step writes
that pixel's bytes at `i * bpp` and no other byte, and changes nothing but PIX, PK, PEND, STATE, those bytes, the model's draw
counter, and the cursor, whose value R29 leaves unspecified (log 4). Where a host write waits for one of those bytes (R186, log 9),
that write stands in place of the byte of `encpix` and waits no more; the writes that wait for other bytes still wait. The pixel is
read from the source START found (R184, log 25). -/
def Obligations.PixelStepChoosingEffect : Prop :=
  ∀ (s : State) (i : Nat), Inv s → s.convState = .busy → Pending.has i s.pend = true →
    ∃ (f : OutputFormat) (t : State) (c : Channels), formatOfTag s.fmtR = some f ∧
      c = asChannels s.aR (s.view.stored (i % s.wR.toNat) (i / s.wR.toNat)) ∧
      pixelStepChoosing i s = .next t ∧
      t = { s with
            pix := ⟨c.red, c.green, c.blue, c.alphaOr255 s.aR⟩
            pk := t.pk, x := t.x, y := t.y, draws := t.draws, pend := t.pend, out := t.out, late := t.late
            convState := if t.pend = [] then .done else .busy } ∧
      (f = .rgb565 → t.pk = (enc565 c.red c.green c.blue).zeroExtend 32) ∧
      (f = .argb8888 → t.pk = enc8888 (c.alphaOr255 s.aR) c.red c.green c.blue) ∧
      (∀ j, Pending.has j t.pend = (Pending.has j s.pend && decide (j ≠ i))) ∧
      (∀ k, k < bpp f →
        Memory.read t.out (i * bpp f + k) = (Memory.read s.late (i * bpp f + k)).or ((encpix f c s.aR)[k]?)) ∧
      (∀ k, k < bpp f → Memory.read t.late (i * bpp f + k) = none) ∧
      (∀ a, a < i * bpp f ∨ i * bpp f + bpp f ≤ a →
        Memory.read t.out a = Memory.read s.out a ∧ Memory.read t.late a = Memory.read s.late a) ∧
      (s.cfg.issueOrder = .any → ∃ j, Pending.has j s.pend = true ∧ pixelStep s = pixelStepChoosing j s)

/-- R134: ADVANCE. No cursor wraps; after the last pixel, X = 0 and Y = H_R. -/
def Obligations.AdvanceMovesTheCursor : Prop :=
  ∀ s : State, Inv s → s.convState = .busy → s.cfg.issueOrder = .rowMajor →
    ∃ t, pixelStep s = .next t ∧
      (s.x.toNat + 1 < s.wR.toNat → t.x.toNat = s.x.toNat + 1 ∧ t.y = s.y) ∧
      (¬ s.x.toNat + 1 < s.wR.toNat → t.x = 0#32 ∧ t.y.toNat = s.y.toNat + 1) ∧
      s.x.toNat + 1 ≤ 2 ^ 32 - 1 ∧ s.y.toNat + 1 ≤ 2 ^ 32 - 1 ∧
      (t.convState = .done → t.x = 0#32 ∧ t.y = s.hR)

/-- R136: the step that empties PEND, and no other, enters DONE; LEN stays and ERR stays 0; under RowMajor it is the step of the last
pixel of the last row. -/
def Obligations.LastPixelCompletes : Prop :=
  ∀ s : State, Inv s → s.convState = .busy →
    ∃ t, blockTurn s = .next t ∧
      (t.convState = .done ↔ t.pend = []) ∧ (t.convState = .busy ↔ t.pend ≠ []) ∧
      t.len = s.len ∧ t.errCode = .none ∧ Pending.count t.pend + 1 = Pending.count s.pend ∧
      (s.cfg.issueOrder = .rowMajor →
        (t.convState = .done ↔ s.x.toNat + 1 = s.wR.toNat ∧ s.y.toNat + 1 = s.hR.toNat))

/-- R135: under RowMajor the index taken is the least pending one, and the step is the `Any` step with that choice, but for the
cursor (and the model's draw counter). -/
def Obligations.RowMajorTakesTheLeastPending : Prop :=
  ∀ s : State, Inv s → s.convState = .busy → s.cfg.issueOrder = .rowMajor →
    Pending.least s.pend = some (s.y.toNat * s.wR.toNat + s.x.toNat) ∧
    (∀ j, Pending.has j s.pend = true → s.y.toNat * s.wR.toNat + s.x.toNat ≤ j) ∧
    ∃ t u, pixelStep s = .next t ∧ pixelStepChoosing (s.y.toNat * s.wR.toNat + s.x.toNat) s = .next u ∧
      u = { t with x := u.x, y := u.y, draws := u.draws }

/-- R147: in IDLE, DONE and ERROR the block changes nothing; while BUSY its step raises no exception and writes no status flag but
the transition to DONE. -/
def Obligations.BlockTurnNeverFails : Prop :=
  ∀ s : State, Inv s →
    (s.convState ≠ .busy → blockTurn s = .next s) ∧
    (s.convState = .busy →
      ∃ t, blockTurn s = .next t ∧ t.errCode = s.errCode ∧ (t.convState = .busy ∨ t.convState = .done))

/-! ## The host port (spec/10_state.md R34, spec/41_raster_serializer.md R143, R144, spec/20_memory.md) -/

/-- R75, R76, R77: the fields of STATUS with the number of each state and each error, its reserved bits, and that a host write to it is
ignored. -/
def Obligations.StatusWordFields : Prop :=
  ∀ s : State,
    (s.convState = .idle → (statusWord s).extractLsb' 0 2 = 0#2) ∧
    (s.convState = .busy → (statusWord s).extractLsb' 0 2 = 1#2) ∧
    (s.convState = .done → (statusWord s).extractLsb' 0 2 = 2#2) ∧
    (s.convState = .error → (statusWord s).extractLsb' 0 2 = 3#2) ∧
    (s.errCode = .none → (statusWord s).extractLsb' 2 2 = 0#2) ∧
    (s.errCode = .unsupportedFormat → (statusWord s).extractLsb' 2 2 = 1#2) ∧
    (s.errCode = .invalidDimensions → (statusWord s).extractLsb' 2 2 = 2#2) ∧
    (statusWord s).extractLsb' 2 2 ≠ 3#2 ∧ (statusWord s).extractLsb' 4 4 = 0#4 ∧
    ∀ (v : Byte) (rest : List Input), s.inputs = .access (.writeStatus v) :: rest →
      step s = .next { s with inputs := rest }

/-- R143: READ STATUS returns the status word and changes no state of the block, in any state; the model notes that DONE has been
read. -/
def Obligations.ReadStatusReturnsStatus : Prop :=
  ∀ (s : State) (rest : List Input), s.inputs = .access .readStatus :: rest →
    step s =
      .next { s with
        inputs := rest
        seen := .status (0#4 ++ errBits s.errCode ++ stateBits s.convState) :: s.seen
        doneRead := s.doneRead || decide (s.convState = .done) }

/-- R144: READ LEN returns LEN and changes no state; while BUSY it is already the final length. -/
def Obligations.ReadLenReturnsLen : Prop :=
  ∀ (s : State) (rest : List Input), Inv s → s.inputs = .access .readLen :: rest →
    step s = .next { s with inputs := rest, seen := .len s.len :: s.seen } ∧
    (s.convState = .busy →
      ∃ f, formatOfTag s.fmtR = some f ∧ s.len.toNat = s.wR.toNat * s.hR.toNat * bpp f)

/-- R34: a host write to LEN is ignored. -/
def Obligations.LenWriteIsIgnored : Prop :=
  ∀ (s : State) (v : U64) (rest : List Input), s.inputs = .access (.writeLen v) :: rest →
    step s = .next { s with inputs := rest }

/-- R60, R183: before the host has read DONE, a read of a byte below LEN gives its old or its final value; afterwards, and at LEN or
above, what stands in OUT. It changes no state of the block. Where nothing has written a byte its value is the free value
`Config.outBefore` (log 7). -/
def Obligations.HostReadOfOut : Prop :=
  ∀ (s : State) (off : U64) (rest : List Input), s.inputs = .access (.readOut off) :: rest →
    ∃ v : Byte,
      step s = .next { s with inputs := rest, seen := .outByte off v :: s.seen, draws := s.draws + 1 } ∧
      (s.doneRead = true ∨ s.len.toNat ≤ off.toNat →
        v = (Memory.read s.out off.toNat).getD (Config.outBefore off.toNat)) ∧
      (s.doneRead = false ∧ off.toNat < s.len.toNat →
        v = (Memory.read s.outOld off.toNat).getD (Config.outBefore off.toNat) ∨ v = finalByte off.toNat s)

/-- R60: the final value an early read may give is the byte of `pack`, where the host has kept the hazards. -/
def Obligations.FinalByteIsThePackByte : Prop :=
  ∀ (s : State) (f : OutputFormat) (off : Nat), CleanInv s → s.convState = .busy ∨ s.convState = .done →
    formatOfTag s.fmtR = some f → off < s.len.toNat →
    (packBytes f (latchedSource s))[off]? = some (finalByte off s)

/-- R186: a host write of OUT changes no other byte, neither what stands there nor its old or final value, and no state of the block.
Outside a running conversion it simply lands; during one, the byte ends as the host's value or as the block's, or as an earlier host
write left it (log 9, log 24). -/
def Obligations.HostWriteOfOut : Prop :=
  ∀ (s : State) (off : U64) (v : Byte) (rest : List Input), Inv s → s.inputs = .access (.writeOut off v) :: rest →
    ∃ t, step s = .next t ∧
      t = { s with inputs := rest, draws := s.draws + 1, out := t.out, outOld := t.outOld, late := t.late } ∧
      (∀ a, a ≠ off.toNat →
        Memory.read t.out a = Memory.read s.out a ∧ Memory.read t.outOld a = Memory.read s.outOld a ∧
          Memory.read t.late a = Memory.read s.late a ∧ finalByte a t = finalByte a s) ∧
      (¬ (s.convState = .busy ∧ off.toNat < s.len.toNat) → Memory.read t.out off.toNat = some v) ∧
      (s.convState = .busy ∧ off.toNat < s.len.toNat →
        finalByte off.toNat t = v ∨ finalByte off.toNat t = finalByte off.toNat s ∨
          conversionByte off.toNat s = some (finalByte off.toNat t))

/-- R64, R184: outside BUSY the new source is in place; while BUSY too, where every pixel that the latched grid and the new source both
declare keeps its value, and otherwise it is refused (log 12). A pixel step is the same with the new source as without (log 25). -/
def Obligations.SourceChangeDuringConversion : Prop :=
  ∀ (s : State) (src : Source) (rest : List Input), s.inputs = .access (.supplySrc src) :: rest →
    (s.convState ≠ .busy → step s = .next { s with inputs := rest, src := src }) ∧
    ((∀ x y, x < s.wR.toNat → y < s.hR.toNat → x < src.width.toNat → y < src.height.toNat →
        asChannels (s.aR && src.hasAlpha) (src.stored x y) = asChannels (s.aR && src.hasAlpha) (s.view.stored x y)) →
      step s = .next { s with inputs := rest, src := src }) ∧
    (∀ x y, s.convState = .busy → x < s.wR.toNat → y < s.hR.toNat → x < src.width.toNat → y < src.height.toNat →
      asChannels (s.aR && src.hasAlpha) (src.stored x y) ≠ asChannels (s.aR && src.hasAlpha) (s.view.stored x y) →
      step s = .refused .sourceChangedWhileBusy) ∧
    ∀ t, pixelStep s = .next t → pixelStep { s with src := src } = .next { t with src := src }

/-! ## Reset (spec/70_reset_and_hazards.md) -/

/-- R175: after reset STATUS reads 0x00 and LEN reads 0. -/
def Obligations.ResetStateReadsZero : Prop :=
  statusWord State.reset = 0x00#8 ∧ State.reset.len = 0#64 ∧ State.reset.convState = .idle ∧
    State.reset.errCode = .none ∧ State.reset.cfg.wf = true

/-- R175, R176: the reset input, in any state: STATUS and LEN are 0, SRC and the parameters are untouched, and so is every byte of
OUT for which no host write is outstanding (log 9). -/
def Obligations.ResetInputEffect : Prop :=
  ∀ (s : State) (rest : List Input), s.inputs = .reset :: rest →
    ∃ t, step s = .next t ∧ statusWord t = 0x00#8 ∧ t.len = 0#64 ∧ t.src = s.src ∧ t.cfg = s.cfg ∧
      t.inputs = rest ∧ t.seen = s.seen ∧
      ∀ a, Memory.read s.late a = none → Memory.read t.out a = Memory.read s.out a

/-- R191: a reset abandons a running conversion: no later turn of the block writes a byte. -/
def Obligations.ResetAbandonsConversion : Prop :=
  ∀ (s : State) (k : Nat), s.inputs = [.reset] → s.late = [] →
    ∃ t, Host.Core.run Sys2Proof.core (1 + k) s = .next t ∧ t.convState = .idle ∧ t.out = s.out

/-! ## Invariants and whole-machine rules -/

/-- The state after reset, of any well-formed implementation, meets both invariants. -/
def Obligations.ResetMeetsTheInvariants : Prop :=
  ∀ cfg : Config, cfg.wf = true → CleanInv (State.resetWith cfg)

/-- R28, R29, R31, R37: every step keeps the invariant of the machine, whatever the host does. -/
def Obligations.StepKeepsInv : Prop :=
  ∀ s t : State, Inv s → step s = .next t → Inv t

/-- R37, R38: while the host keeps the hazard on OUT (one on SRC is refused), every step keeps the bytes already written final. -/
def Obligations.HazardKeepingStepKeepsBytesFinal : Prop :=
  ∀ s t : State, CleanInv s → keepsHazards s → step s = .next t → CleanInv t

/-- R38: in DONE, OUT[0 .. LEN) equals `pack` of the latched source, as long as the host kept the hazards. -/
def Obligations.DoneOutputEqualsPack : Prop :=
  ∀ s : State, CleanInv s → s.convState = .done →
    ∃ bytes, pack s.cfg.lenMax (latchedSource s) s.fmtR = .ok bytes ∧ s.len.toNat = bytes.length ∧
      Memory.slice s.out 0 s.len.toNat = bytes.map some

/-- R50: in DONE, two or four bytes read as one word give the packed value big-endian, and the byte-swapped value little-endian; two
bytes of two pixels give one byte of each. -/
def Obligations.MixedWidthViewsOfOut : Prop :=
  ∀ s : State, CleanInv s → s.convState = .done →
    (s.fmtR = 0x00#8 → ∀ i, i < s.wR.toNat * s.hR.toNat →
      ∃ v : U16,
        v = enc565 (latchedPixelColour i s).r (latchedPixelColour i s).g (latchedPixelColour i s).b ∧
        Memory.readBe16 s.out (2 * i) = some v ∧
        Memory.readLe16 s.out (2 * i) = some (v.extractLsb' 0 8 ++ v.extractLsb' 8 8) ∧
        ∀ w : U16, i + 1 < s.wR.toNat * s.hR.toNat →
          w = enc565 (latchedPixelColour (i + 1) s).r (latchedPixelColour (i + 1) s).g (latchedPixelColour (i + 1) s).b →
          Memory.readBe16 s.out (2 * i + 1) = some (v.extractLsb' 0 8 ++ w.extractLsb' 8 8)) ∧
    (s.fmtR = 0x01#8 → ∀ i, i < s.wR.toNat * s.hR.toNat →
      ∃ v : U32,
        v = enc8888 (if s.aR then (latchedPixelColour i s).a else 255#8)
          (latchedPixelColour i s).r (latchedPixelColour i s).g (latchedPixelColour i s).b ∧
        Memory.readBe32 s.out (4 * i) = some v ∧
        Memory.readLe32 s.out (4 * i) =
          some (v.extractLsb' 0 8 ++ v.extractLsb' 8 8 ++ v.extractLsb' 16 8 ++ v.extractLsb' 24 8) ∧
        ∀ w : U32, i + 1 < s.wR.toNat * s.hR.toNat →
          w = enc8888 (if s.aR then (latchedPixelColour (i + 1) s).a else 255#8) (latchedPixelColour (i + 1) s).r
            (latchedPixelColour (i + 1) s).g (latchedPixelColour (i + 1) s).b →
          Memory.readBe16 s.out (4 * i + 3) = some (v.extractLsb' 0 8 ++ w.extractLsb' 24 8))

/-- R147, R169: only a CMD write or a reset changes a register of the block outside BUSY. -/
def Obligations.OnlyCommandOrResetLeavesQuiescence : Prop :=
  ∀ s t : State, s.convState ≠ .busy →
    (∀ c rest, s.inputs ≠ .command c :: rest) → (∀ rest, s.inputs ≠ .reset :: rest) → step s = .next t →
    t.convState = s.convState ∧ t.errCode = s.errCode ∧ t.len = s.len ∧ t.fmtR = s.fmtR ∧ t.wR = s.wR ∧ t.hR = s.hR ∧
      t.aR = s.aR ∧ t.x = s.x ∧ t.y = s.y ∧ t.pend = s.pend ∧ t.pix = s.pix ∧ t.pk = s.pk

/-- R23, R24, R25, R27, R28: the latches, LEN and ERR change only by a START or a reset. That no step changes the parameters (R11, R12)
is the model's choice (log 1). -/
def Obligations.LatchesChangeOnlyByStartOrReset : Prop :=
  ∀ s t : State, step s = .next t →
    t.cfg = s.cfg ∧
    ((∀ c rest, s.inputs ≠ .command c :: rest) → (∀ rest, s.inputs ≠ .reset :: rest) →
      t.fmtR = s.fmtR ∧ t.wR = s.wR ∧ t.hR = s.hR ∧ t.aR = s.aR ∧ t.len = s.len ∧ t.errCode = s.errCode)

/-- R55: no step but a host write changes a byte of OUT at LEN or above. -/
def Obligations.BytesAboveLenStay : Prop :=
  ∀ s t : State, Inv s → (∀ off v rest, s.inputs ≠ .access (.writeOut off v) :: rest) → step s = .next t →
    ∀ a, s.len.toNat ≤ a → Memory.read t.out a = Memory.read s.out a

/-- R153, R166: from a state that meets the invariant, the only fault is the CMD write while BUSY, and the only refusal is a change
of the source's pixel values while BUSY. -/
def Obligations.OnlyHostViolationsStopTheMachine : Prop :=
  ∀ s : State, Inv s →
    (∀ e, step s = .fault e →
      e = .hostProtocolViolation ∧ s.convState = .busy ∧ ∃ c rest, s.inputs = .command c :: rest) ∧
    ∀ r, step s = .refused r →
      r = .sourceChangedWhileBusy ∧ s.convState = .busy ∧ ∃ src rest, s.inputs = .access (.supplySrc src) :: rest

/-! ## Conversions -/

/-- R137, R138, R141, R142: a conversion, under either issue order: one START step, then exactly `W * H` pixel steps, BUSY until the
last, and then DONE with OUT[0 .. LEN) = pack(SRC, tag) and every byte at LEN or above as it was. -/
def Obligations.ConversionEqualsPack : Prop :=
  ∀ (i : Instr) (s : State), Inv s → s.convState ≠ .busy → s.inputs = [.command (encode i)] →
    s.src.width.toNat * s.src.height.toNat * bpp (formatOf i) ≤ s.cfg.lenMax →
    (∀ k, k < s.src.width.toNat * s.src.height.toNat →
      ∃ u, Host.Core.run Sys2Proof.core (1 + k) s = .next u ∧ u.convState = .busy) ∧
    ∃ (t : State) (bytes : List Byte),
      Host.Core.run Sys2Proof.core (1 + s.src.width.toNat * s.src.height.toNat) s = .next t ∧
      pack s.cfg.lenMax s.src (encode i) = .ok bytes ∧
      t.convState = .done ∧ t.errCode = .none ∧
      t.len.toNat = s.src.width.toNat * s.src.height.toNat * bpp (formatOf i) ∧
      Memory.slice t.out 0 t.len.toNat = bytes.map some ∧
      ∀ a, t.len.toNat ≤ a → Memory.read t.out a = Memory.read s.out a

/-- R137: under `Any`, for EVERY choice sequence: any pending pixels, each taken once, can be taken in any order; a run of choices leaves
as many fewer pixels pending as it took; and when none is left the conversion is DONE with OUT[0 .. LEN) = pack of the latched
source. -/
def Obligations.EveryScheduleEndsInPack : Prop :=
  ∀ s : State, CleanInv s → s.convState = .busy → s.cfg.issueOrder = .any →
    (∀ cs : List Nat, cs.Nodup → (∀ i ∈ cs, Pending.has i s.pend = true) → ∃ t, runChoices cs s = .next t) ∧
    ∀ (cs : List Nat) (t : State), runChoices cs s = .next t →
      Pending.count t.pend + cs.length = Pending.count s.pend ∧
      (t.convState = .done ↔ cs.length = Pending.count s.pend) ∧
      (t.convState = .done →
        ∃ bytes, pack s.cfg.lenMax (latchedSource s) s.fmtR = .ok bytes ∧ t.len = s.len ∧
          Memory.slice t.out 0 t.len.toNat = bytes.map some)

/-- R20, R42, R123: nothing of an earlier conversion, and nothing of the issue order, reaches the bytes of a later one: two machines
that agree only on SRC and LEN_MAX end one command with the same observation. -/
def Obligations.EarlierConversionsDoNotMatter : Prop :=
  ∀ (i : Instr) (s1 s2 : State), Inv s1 → Inv s2 → s1.convState ≠ .busy → s2.convState ≠ .busy →
    s1.src = s2.src → s1.cfg.lenMax = s2.cfg.lenMax →
    s1.inputs = [.command (encode i)] → s2.inputs = [.command (encode i)] →
    ∃ t1 t2,
      Host.Core.run Sys2Proof.core (1 + s1.src.width.toNat * s1.src.height.toNat) s1 = .next t1 ∧
      Host.Core.run Sys2Proof.core (1 + s2.src.width.toNat * s2.src.height.toNat) s2 = .next t2 ∧
      endOfRun t1 = true ∧ endOfRun t2 = true ∧ observation t1 = observation t2

/-- R87, R167, R138: `CONVERT <fmt>`, START then POLL, ends: the host has read DONE (STATUS = 0x02), no input is left, and OUT[0 ..
LEN) = pack(SRC, tag). POLL reads STATUS once before each pixel step and once after the last (log 16). -/
def Obligations.ConvertPollsUntilDone : Prop :=
  ∀ (i : Instr) (s : State), Inv s → s.convState ≠ .busy → s.inputs = convert i →
    s.src.width.toNat * s.src.height.toNat * bpp (formatOf i) ≤ s.cfg.lenMax →
    ∃ (t : State) (bytes : List Byte),
      Host.Core.run Sys2Proof.core (2 + 2 * (s.src.width.toNat * s.src.height.toNat)) s = .next t ∧
      pack s.cfg.lenMax s.src (encode i) = .ok bytes ∧
      t.inputs = [] ∧ t.doneRead = true ∧ t.convState = .done ∧
      t.seen.head? = some (.status 0x02#8) ∧
      Memory.slice t.out 0 t.len.toNat = bytes.map some

/-! ## The pixel source (spec/10_state.md R35, spec/20_memory.md R47) -/

/-- R35, R47: what the pixel function of SRC returns, in the model's form of it (log 5): a listed pixel has its listed colour, every other
pixel has the colour `fill`, alpha is delivered where the source has it, and no two coordinates share a key. -/
def Obligations.SourcePixelFunction : Prop :=
  ∀ src : Source, src.wf = true →
    (∀ x y x' y', x < 2 ^ 32 → y < 2 ^ 32 → x' < 2 ^ 32 → y' < 2 ^ 32 →
      pixelKey x y = pixelKey x' y' → x = x' ∧ y = y') ∧
    ∀ x y, x < 2 ^ 32 → y < 2 ^ 32 →
      (∀ c, (pixelKey x y, c) ∈ src.pixels →
        src.pixel x y = if src.hasAlpha then .rgba c.r c.g c.b c.a else .rgb c.r c.g c.b) ∧
      ((∀ c, (pixelKey x y, c) ∉ src.pixels) →
        src.pixel x y =
          if src.hasAlpha then .rgba src.fill.r src.fill.g src.fill.b src.fill.a
          else .rgb src.fill.r src.fill.g src.fill.b)
end

