-- ==== Sys2Proof/Laws/Encoders.lean ====
section
/-! SUPPORT. Laws of the per-pixel arithmetic: the length of a pixel's bytes, and that the pixel step's latch, encoder and
serializer compose to `encpix` (spec/41_raster_serializer.md R118). -/

namespace Sys2Proof.Machine

@[simp] theorem formatOfTag_zero : formatOfTag 0x00#8 = some .rgb565 := rfl

@[simp] theorem formatOfTag_one : formatOfTag 0x01#8 = some .argb8888 := rfl

@[simp] theorem formatOfTag_encode (i : Instr) : formatOfTag (encode i) = some (formatOf i) := by cases i <;> rfl

theorem formatOfTag_eq_none (c : Byte) (h : 2 ≤ c.toNat) : formatOfTag c = none := by
  have h0 : c ≠ 0x00#8 := by rintro rfl; simp at h
  have h1 : c ≠ 0x01#8 := by rintro rfl; simp at h
  simp [formatOfTag, decode, h0, h1]

theorem bpp_pos (f : OutputFormat) : 0 < bpp f := by cases f <;> decide

theorem bpp_le (f : OutputFormat) : bpp f ≤ 4 := by cases f <;> decide

@[simp] theorem serialize_length (f : OutputFormat) (w : U32) : (serialize f w).length = bpp f := by cases f <;> rfl

@[simp] theorem encpix_length (f : OutputFormat) (c : Channels) (h : Bool) : (encpix f c h).length = bpp f := by
  cases f <;> rfl

/-- `PK[15:0]` of a zero-extended packed value is that value. -/
theorem low16_zeroExtend (v : U16) : (v.zeroExtend 32).extractLsb' 0 16 = v := by
  apply BitVec.eq_of_toNat_eq
  simp [BitVec.toNat_setWidth, BitVec.extractLsb'_toNat]
  omega

/-- The bytes a pixel step writes are `encpix` of the channels it read. -/
theorem serialize_packedWord (f : OutputFormat) (c : Channels) (h : Bool) :
    serialize f (packedWord f (latchChannels h c)) = encpix f c h := by
  cases f
  · simp only [serialize, packedWord, latchChannels, encpix, low16_zeroExtend]
  · rfl

end Sys2Proof.Machine
end

