-- ==== Sys2Proof/Laws/State.lean ====
section
/-! SUPPORT. One lemma per field per named update of State: what the field holds after it. -/

namespace Sys2Proof.Machine

/-! ## State.withLatches -/

@[simp] theorem State.withLatches_cfg (c : Byte) (s : State) : (s.withLatches c).cfg = s.cfg := rfl
@[simp] theorem State.withLatches_convState (c : Byte) (s : State) : (s.withLatches c).convState = s.convState := rfl
@[simp] theorem State.withLatches_errCode (c : Byte) (s : State) : (s.withLatches c).errCode = s.errCode := rfl
@[simp] theorem State.withLatches_len (c : Byte) (s : State) : (s.withLatches c).len = s.len := rfl
@[simp] theorem State.withLatches_fmtR (c : Byte) (s : State) : (s.withLatches c).fmtR = c := rfl
@[simp] theorem State.withLatches_wR (c : Byte) (s : State) : (s.withLatches c).wR = s.src.width := rfl
@[simp] theorem State.withLatches_hR (c : Byte) (s : State) : (s.withLatches c).hR = s.src.height := rfl
@[simp] theorem State.withLatches_aR (c : Byte) (s : State) : (s.withLatches c).aR = s.src.hasAlpha := rfl
@[simp] theorem State.withLatches_x (c : Byte) (s : State) : (s.withLatches c).x = s.x := rfl
@[simp] theorem State.withLatches_y (c : Byte) (s : State) : (s.withLatches c).y = s.y := rfl
@[simp] theorem State.withLatches_pend (c : Byte) (s : State) : (s.withLatches c).pend = s.pend := rfl
@[simp] theorem State.withLatches_pix (c : Byte) (s : State) : (s.withLatches c).pix = s.pix := rfl
@[simp] theorem State.withLatches_pk (c : Byte) (s : State) : (s.withLatches c).pk = s.pk := rfl
@[simp] theorem State.withLatches_src (c : Byte) (s : State) : (s.withLatches c).src = s.src := rfl
@[simp] theorem State.withLatches_out (c : Byte) (s : State) : (s.withLatches c).out = s.out := rfl
@[simp] theorem State.withLatches_inputs (c : Byte) (s : State) : (s.withLatches c).inputs = s.inputs := rfl
@[simp] theorem State.withLatches_seen (c : Byte) (s : State) : (s.withLatches c).seen = s.seen := rfl
@[simp] theorem State.withLatches_outOld (c : Byte) (s : State) : (s.withLatches c).outOld = s.outOld := rfl
@[simp] theorem State.withLatches_view (c : Byte) (s : State) : (s.withLatches c).view = s.view := rfl
@[simp] theorem State.withLatches_late (c : Byte) (s : State) : (s.withLatches c).late = s.late := rfl
@[simp] theorem State.withLatches_doneRead (c : Byte) (s : State) : (s.withLatches c).doneRead = s.doneRead := rfl
@[simp] theorem State.withLatches_draws (c : Byte) (s : State) : (s.withLatches c).draws = s.draws := rfl

/-! ## State.withError -/

@[simp] theorem State.withError_cfg (e : ErrCode) (s : State) : (s.withError e).cfg = s.cfg := rfl
@[simp] theorem State.withError_convState (e : ErrCode) (s : State) : (s.withError e).convState = .error := rfl
@[simp] theorem State.withError_errCode (e : ErrCode) (s : State) : (s.withError e).errCode = e := rfl
@[simp] theorem State.withError_len (e : ErrCode) (s : State) : (s.withError e).len = 0#64 := rfl
@[simp] theorem State.withError_fmtR (e : ErrCode) (s : State) : (s.withError e).fmtR = s.fmtR := rfl
@[simp] theorem State.withError_wR (e : ErrCode) (s : State) : (s.withError e).wR = s.wR := rfl
@[simp] theorem State.withError_hR (e : ErrCode) (s : State) : (s.withError e).hR = s.hR := rfl
@[simp] theorem State.withError_aR (e : ErrCode) (s : State) : (s.withError e).aR = s.aR := rfl
@[simp] theorem State.withError_x (e : ErrCode) (s : State) : (s.withError e).x = s.x := rfl
@[simp] theorem State.withError_y (e : ErrCode) (s : State) : (s.withError e).y = s.y := rfl
@[simp] theorem State.withError_pend (e : ErrCode) (s : State) : (s.withError e).pend = s.pend := rfl
@[simp] theorem State.withError_pix (e : ErrCode) (s : State) : (s.withError e).pix = s.pix := rfl
@[simp] theorem State.withError_pk (e : ErrCode) (s : State) : (s.withError e).pk = s.pk := rfl
@[simp] theorem State.withError_src (e : ErrCode) (s : State) : (s.withError e).src = s.src := rfl
@[simp] theorem State.withError_out (e : ErrCode) (s : State) : (s.withError e).out = s.out := rfl
@[simp] theorem State.withError_inputs (e : ErrCode) (s : State) : (s.withError e).inputs = s.inputs := rfl
@[simp] theorem State.withError_seen (e : ErrCode) (s : State) : (s.withError e).seen = s.seen := rfl
@[simp] theorem State.withError_outOld (e : ErrCode) (s : State) : (s.withError e).outOld = s.outOld := rfl
@[simp] theorem State.withError_view (e : ErrCode) (s : State) : (s.withError e).view = s.view := rfl
@[simp] theorem State.withError_late (e : ErrCode) (s : State) : (s.withError e).late = s.late := rfl
@[simp] theorem State.withError_doneRead (e : ErrCode) (s : State) : (s.withError e).doneRead = s.doneRead := rfl
@[simp] theorem State.withError_draws (e : ErrCode) (s : State) : (s.withError e).draws = s.draws := rfl

/-! ## State.withAccepted -/

@[simp] theorem State.withAccepted_cfg (n : Nat) (s : State) : (s.withAccepted n).cfg = s.cfg := rfl
@[simp] theorem State.withAccepted_convState (n : Nat) (s : State) : (s.withAccepted n).convState = if n = 0 then .done else .busy := rfl
@[simp] theorem State.withAccepted_errCode (n : Nat) (s : State) : (s.withAccepted n).errCode = .none := rfl
@[simp] theorem State.withAccepted_len (n : Nat) (s : State) : (s.withAccepted n).len = BitVec.ofNat 64 n := rfl
@[simp] theorem State.withAccepted_fmtR (n : Nat) (s : State) : (s.withAccepted n).fmtR = s.fmtR := rfl
@[simp] theorem State.withAccepted_wR (n : Nat) (s : State) : (s.withAccepted n).wR = s.wR := rfl
@[simp] theorem State.withAccepted_hR (n : Nat) (s : State) : (s.withAccepted n).hR = s.hR := rfl
@[simp] theorem State.withAccepted_aR (n : Nat) (s : State) : (s.withAccepted n).aR = s.aR := rfl
@[simp] theorem State.withAccepted_x (n : Nat) (s : State) : (s.withAccepted n).x = 0#32 := rfl
@[simp] theorem State.withAccepted_y (n : Nat) (s : State) : (s.withAccepted n).y = 0#32 := rfl
@[simp] theorem State.withAccepted_pend (n : Nat) (s : State) : (s.withAccepted n).pend = Pending.full (s.wR.toNat * s.hR.toNat) := rfl
@[simp] theorem State.withAccepted_pix (n : Nat) (s : State) : (s.withAccepted n).pix = s.pix := rfl
@[simp] theorem State.withAccepted_pk (n : Nat) (s : State) : (s.withAccepted n).pk = s.pk := rfl
@[simp] theorem State.withAccepted_src (n : Nat) (s : State) : (s.withAccepted n).src = s.src := rfl
@[simp] theorem State.withAccepted_out (n : Nat) (s : State) : (s.withAccepted n).out = s.out := rfl
@[simp] theorem State.withAccepted_inputs (n : Nat) (s : State) : (s.withAccepted n).inputs = s.inputs := rfl
@[simp] theorem State.withAccepted_seen (n : Nat) (s : State) : (s.withAccepted n).seen = s.seen := rfl
@[simp] theorem State.withAccepted_outOld (n : Nat) (s : State) : (s.withAccepted n).outOld = s.out := rfl
@[simp] theorem State.withAccepted_view (n : Nat) (s : State) : (s.withAccepted n).view = s.src := rfl
@[simp] theorem State.withAccepted_late (n : Nat) (s : State) : (s.withAccepted n).late = [] := rfl
@[simp] theorem State.withAccepted_doneRead (n : Nat) (s : State) : (s.withAccepted n).doneRead = false := rfl
@[simp] theorem State.withAccepted_draws (n : Nat) (s : State) : (s.withAccepted n).draws = s.draws := rfl

/-! ## State.withPixel -/

@[simp] theorem State.withPixel_cfg (p : Rgba) (w : U32) (s : State) : (s.withPixel p w).cfg = s.cfg := rfl
@[simp] theorem State.withPixel_convState (p : Rgba) (w : U32) (s : State) : (s.withPixel p w).convState = s.convState := rfl
@[simp] theorem State.withPixel_errCode (p : Rgba) (w : U32) (s : State) : (s.withPixel p w).errCode = s.errCode := rfl
@[simp] theorem State.withPixel_len (p : Rgba) (w : U32) (s : State) : (s.withPixel p w).len = s.len := rfl
@[simp] theorem State.withPixel_fmtR (p : Rgba) (w : U32) (s : State) : (s.withPixel p w).fmtR = s.fmtR := rfl
@[simp] theorem State.withPixel_wR (p : Rgba) (w : U32) (s : State) : (s.withPixel p w).wR = s.wR := rfl
@[simp] theorem State.withPixel_hR (p : Rgba) (w : U32) (s : State) : (s.withPixel p w).hR = s.hR := rfl
@[simp] theorem State.withPixel_aR (p : Rgba) (w : U32) (s : State) : (s.withPixel p w).aR = s.aR := rfl
@[simp] theorem State.withPixel_x (p : Rgba) (w : U32) (s : State) : (s.withPixel p w).x = s.x := rfl
@[simp] theorem State.withPixel_y (p : Rgba) (w : U32) (s : State) : (s.withPixel p w).y = s.y := rfl
@[simp] theorem State.withPixel_pend (p : Rgba) (w : U32) (s : State) : (s.withPixel p w).pend = s.pend := rfl
@[simp] theorem State.withPixel_pix (p : Rgba) (w : U32) (s : State) : (s.withPixel p w).pix = p := rfl
@[simp] theorem State.withPixel_pk (p : Rgba) (w : U32) (s : State) : (s.withPixel p w).pk = w := rfl
@[simp] theorem State.withPixel_src (p : Rgba) (w : U32) (s : State) : (s.withPixel p w).src = s.src := rfl
@[simp] theorem State.withPixel_out (p : Rgba) (w : U32) (s : State) : (s.withPixel p w).out = s.out := rfl
@[simp] theorem State.withPixel_inputs (p : Rgba) (w : U32) (s : State) : (s.withPixel p w).inputs = s.inputs := rfl
@[simp] theorem State.withPixel_seen (p : Rgba) (w : U32) (s : State) : (s.withPixel p w).seen = s.seen := rfl
@[simp] theorem State.withPixel_outOld (p : Rgba) (w : U32) (s : State) : (s.withPixel p w).outOld = s.outOld := rfl
@[simp] theorem State.withPixel_view (p : Rgba) (w : U32) (s : State) : (s.withPixel p w).view = s.view := rfl
@[simp] theorem State.withPixel_late (p : Rgba) (w : U32) (s : State) : (s.withPixel p w).late = s.late := rfl
@[simp] theorem State.withPixel_doneRead (p : Rgba) (w : U32) (s : State) : (s.withPixel p w).doneRead = s.doneRead := rfl
@[simp] theorem State.withPixel_draws (p : Rgba) (w : U32) (s : State) : (s.withPixel p w).draws = s.draws := rfl

/-! ## State.withPend -/

@[simp] theorem State.withPend_cfg (p : Pending) (s : State) : (s.withPend p).cfg = s.cfg := rfl
@[simp] theorem State.withPend_convState (p : Pending) (s : State) : (s.withPend p).convState = s.convState := rfl
@[simp] theorem State.withPend_errCode (p : Pending) (s : State) : (s.withPend p).errCode = s.errCode := rfl
@[simp] theorem State.withPend_len (p : Pending) (s : State) : (s.withPend p).len = s.len := rfl
@[simp] theorem State.withPend_fmtR (p : Pending) (s : State) : (s.withPend p).fmtR = s.fmtR := rfl
@[simp] theorem State.withPend_wR (p : Pending) (s : State) : (s.withPend p).wR = s.wR := rfl
@[simp] theorem State.withPend_hR (p : Pending) (s : State) : (s.withPend p).hR = s.hR := rfl
@[simp] theorem State.withPend_aR (p : Pending) (s : State) : (s.withPend p).aR = s.aR := rfl
@[simp] theorem State.withPend_x (p : Pending) (s : State) : (s.withPend p).x = s.x := rfl
@[simp] theorem State.withPend_y (p : Pending) (s : State) : (s.withPend p).y = s.y := rfl
@[simp] theorem State.withPend_pend (p : Pending) (s : State) : (s.withPend p).pend = p := rfl
@[simp] theorem State.withPend_pix (p : Pending) (s : State) : (s.withPend p).pix = s.pix := rfl
@[simp] theorem State.withPend_pk (p : Pending) (s : State) : (s.withPend p).pk = s.pk := rfl
@[simp] theorem State.withPend_src (p : Pending) (s : State) : (s.withPend p).src = s.src := rfl
@[simp] theorem State.withPend_out (p : Pending) (s : State) : (s.withPend p).out = s.out := rfl
@[simp] theorem State.withPend_inputs (p : Pending) (s : State) : (s.withPend p).inputs = s.inputs := rfl
@[simp] theorem State.withPend_seen (p : Pending) (s : State) : (s.withPend p).seen = s.seen := rfl
@[simp] theorem State.withPend_outOld (p : Pending) (s : State) : (s.withPend p).outOld = s.outOld := rfl
@[simp] theorem State.withPend_view (p : Pending) (s : State) : (s.withPend p).view = s.view := rfl
@[simp] theorem State.withPend_late (p : Pending) (s : State) : (s.withPend p).late = s.late := rfl
@[simp] theorem State.withPend_doneRead (p : Pending) (s : State) : (s.withPend p).doneRead = s.doneRead := rfl
@[simp] theorem State.withPend_draws (p : Pending) (s : State) : (s.withPend p).draws = s.draws := rfl

/-! ## State.withCursor -/

@[simp] theorem State.withCursor_cfg (x y : U32) (s : State) : (s.withCursor x y).cfg = s.cfg := rfl
@[simp] theorem State.withCursor_convState (x y : U32) (s : State) : (s.withCursor x y).convState = s.convState := rfl
@[simp] theorem State.withCursor_errCode (x y : U32) (s : State) : (s.withCursor x y).errCode = s.errCode := rfl
@[simp] theorem State.withCursor_len (x y : U32) (s : State) : (s.withCursor x y).len = s.len := rfl
@[simp] theorem State.withCursor_fmtR (x y : U32) (s : State) : (s.withCursor x y).fmtR = s.fmtR := rfl
@[simp] theorem State.withCursor_wR (x y : U32) (s : State) : (s.withCursor x y).wR = s.wR := rfl
@[simp] theorem State.withCursor_hR (x y : U32) (s : State) : (s.withCursor x y).hR = s.hR := rfl
@[simp] theorem State.withCursor_aR (x y : U32) (s : State) : (s.withCursor x y).aR = s.aR := rfl
@[simp] theorem State.withCursor_x (x y : U32) (s : State) : (s.withCursor x y).x = x := rfl
@[simp] theorem State.withCursor_y (x y : U32) (s : State) : (s.withCursor x y).y = y := rfl
@[simp] theorem State.withCursor_pend (x y : U32) (s : State) : (s.withCursor x y).pend = s.pend := rfl
@[simp] theorem State.withCursor_pix (x y : U32) (s : State) : (s.withCursor x y).pix = s.pix := rfl
@[simp] theorem State.withCursor_pk (x y : U32) (s : State) : (s.withCursor x y).pk = s.pk := rfl
@[simp] theorem State.withCursor_src (x y : U32) (s : State) : (s.withCursor x y).src = s.src := rfl
@[simp] theorem State.withCursor_out (x y : U32) (s : State) : (s.withCursor x y).out = s.out := rfl
@[simp] theorem State.withCursor_inputs (x y : U32) (s : State) : (s.withCursor x y).inputs = s.inputs := rfl
@[simp] theorem State.withCursor_seen (x y : U32) (s : State) : (s.withCursor x y).seen = s.seen := rfl
@[simp] theorem State.withCursor_outOld (x y : U32) (s : State) : (s.withCursor x y).outOld = s.outOld := rfl
@[simp] theorem State.withCursor_view (x y : U32) (s : State) : (s.withCursor x y).view = s.view := rfl
@[simp] theorem State.withCursor_late (x y : U32) (s : State) : (s.withCursor x y).late = s.late := rfl
@[simp] theorem State.withCursor_doneRead (x y : U32) (s : State) : (s.withCursor x y).doneRead = s.doneRead := rfl
@[simp] theorem State.withCursor_draws (x y : U32) (s : State) : (s.withCursor x y).draws = s.draws := rfl

/-! ## State.withBuffers -/

@[simp] theorem State.withBuffers_cfg (out old late : Memory) (s : State) : (s.withBuffers out old late).cfg = s.cfg := rfl
@[simp] theorem State.withBuffers_convState (out old late : Memory) (s : State) : (s.withBuffers out old late).convState = s.convState := rfl
@[simp] theorem State.withBuffers_errCode (out old late : Memory) (s : State) : (s.withBuffers out old late).errCode = s.errCode := rfl
@[simp] theorem State.withBuffers_len (out old late : Memory) (s : State) : (s.withBuffers out old late).len = s.len := rfl
@[simp] theorem State.withBuffers_fmtR (out old late : Memory) (s : State) : (s.withBuffers out old late).fmtR = s.fmtR := rfl
@[simp] theorem State.withBuffers_wR (out old late : Memory) (s : State) : (s.withBuffers out old late).wR = s.wR := rfl
@[simp] theorem State.withBuffers_hR (out old late : Memory) (s : State) : (s.withBuffers out old late).hR = s.hR := rfl
@[simp] theorem State.withBuffers_aR (out old late : Memory) (s : State) : (s.withBuffers out old late).aR = s.aR := rfl
@[simp] theorem State.withBuffers_x (out old late : Memory) (s : State) : (s.withBuffers out old late).x = s.x := rfl
@[simp] theorem State.withBuffers_y (out old late : Memory) (s : State) : (s.withBuffers out old late).y = s.y := rfl
@[simp] theorem State.withBuffers_pend (out old late : Memory) (s : State) : (s.withBuffers out old late).pend = s.pend := rfl
@[simp] theorem State.withBuffers_pix (out old late : Memory) (s : State) : (s.withBuffers out old late).pix = s.pix := rfl
@[simp] theorem State.withBuffers_pk (out old late : Memory) (s : State) : (s.withBuffers out old late).pk = s.pk := rfl
@[simp] theorem State.withBuffers_src (out old late : Memory) (s : State) : (s.withBuffers out old late).src = s.src := rfl
@[simp] theorem State.withBuffers_out (out old late : Memory) (s : State) : (s.withBuffers out old late).out = out := rfl
@[simp] theorem State.withBuffers_inputs (out old late : Memory) (s : State) : (s.withBuffers out old late).inputs = s.inputs := rfl
@[simp] theorem State.withBuffers_seen (out old late : Memory) (s : State) : (s.withBuffers out old late).seen = s.seen := rfl
@[simp] theorem State.withBuffers_outOld (out old late : Memory) (s : State) : (s.withBuffers out old late).outOld = old := rfl
@[simp] theorem State.withBuffers_view (out old late : Memory) (s : State) : (s.withBuffers out old late).view = s.view := rfl
@[simp] theorem State.withBuffers_late (out old late : Memory) (s : State) : (s.withBuffers out old late).late = late := rfl
@[simp] theorem State.withBuffers_doneRead (out old late : Memory) (s : State) : (s.withBuffers out old late).doneRead = s.doneRead := rfl
@[simp] theorem State.withBuffers_draws (out old late : Memory) (s : State) : (s.withBuffers out old late).draws = s.draws := rfl

/-! ## State.withConvState -/

@[simp] theorem State.withConvState_cfg (c : ConvState) (s : State) : (s.withConvState c).cfg = s.cfg := rfl
@[simp] theorem State.withConvState_convState (c : ConvState) (s : State) : (s.withConvState c).convState = c := rfl
@[simp] theorem State.withConvState_errCode (c : ConvState) (s : State) : (s.withConvState c).errCode = s.errCode := rfl
@[simp] theorem State.withConvState_len (c : ConvState) (s : State) : (s.withConvState c).len = s.len := rfl
@[simp] theorem State.withConvState_fmtR (c : ConvState) (s : State) : (s.withConvState c).fmtR = s.fmtR := rfl
@[simp] theorem State.withConvState_wR (c : ConvState) (s : State) : (s.withConvState c).wR = s.wR := rfl
@[simp] theorem State.withConvState_hR (c : ConvState) (s : State) : (s.withConvState c).hR = s.hR := rfl
@[simp] theorem State.withConvState_aR (c : ConvState) (s : State) : (s.withConvState c).aR = s.aR := rfl
@[simp] theorem State.withConvState_x (c : ConvState) (s : State) : (s.withConvState c).x = s.x := rfl
@[simp] theorem State.withConvState_y (c : ConvState) (s : State) : (s.withConvState c).y = s.y := rfl
@[simp] theorem State.withConvState_pend (c : ConvState) (s : State) : (s.withConvState c).pend = s.pend := rfl
@[simp] theorem State.withConvState_pix (c : ConvState) (s : State) : (s.withConvState c).pix = s.pix := rfl
@[simp] theorem State.withConvState_pk (c : ConvState) (s : State) : (s.withConvState c).pk = s.pk := rfl
@[simp] theorem State.withConvState_src (c : ConvState) (s : State) : (s.withConvState c).src = s.src := rfl
@[simp] theorem State.withConvState_out (c : ConvState) (s : State) : (s.withConvState c).out = s.out := rfl
@[simp] theorem State.withConvState_inputs (c : ConvState) (s : State) : (s.withConvState c).inputs = s.inputs := rfl
@[simp] theorem State.withConvState_seen (c : ConvState) (s : State) : (s.withConvState c).seen = s.seen := rfl
@[simp] theorem State.withConvState_outOld (c : ConvState) (s : State) : (s.withConvState c).outOld = s.outOld := rfl
@[simp] theorem State.withConvState_view (c : ConvState) (s : State) : (s.withConvState c).view = s.view := rfl
@[simp] theorem State.withConvState_late (c : ConvState) (s : State) : (s.withConvState c).late = s.late := rfl
@[simp] theorem State.withConvState_doneRead (c : ConvState) (s : State) : (s.withConvState c).doneRead = s.doneRead := rfl
@[simp] theorem State.withConvState_draws (c : ConvState) (s : State) : (s.withConvState c).draws = s.draws := rfl

/-! ## State.withSrc -/

@[simp] theorem State.withSrc_cfg (src : Source) (s : State) : (s.withSrc src).cfg = s.cfg := rfl
@[simp] theorem State.withSrc_convState (src : Source) (s : State) : (s.withSrc src).convState = s.convState := rfl
@[simp] theorem State.withSrc_errCode (src : Source) (s : State) : (s.withSrc src).errCode = s.errCode := rfl
@[simp] theorem State.withSrc_len (src : Source) (s : State) : (s.withSrc src).len = s.len := rfl
@[simp] theorem State.withSrc_fmtR (src : Source) (s : State) : (s.withSrc src).fmtR = s.fmtR := rfl
@[simp] theorem State.withSrc_wR (src : Source) (s : State) : (s.withSrc src).wR = s.wR := rfl
@[simp] theorem State.withSrc_hR (src : Source) (s : State) : (s.withSrc src).hR = s.hR := rfl
@[simp] theorem State.withSrc_aR (src : Source) (s : State) : (s.withSrc src).aR = s.aR := rfl
@[simp] theorem State.withSrc_x (src : Source) (s : State) : (s.withSrc src).x = s.x := rfl
@[simp] theorem State.withSrc_y (src : Source) (s : State) : (s.withSrc src).y = s.y := rfl
@[simp] theorem State.withSrc_pend (src : Source) (s : State) : (s.withSrc src).pend = s.pend := rfl
@[simp] theorem State.withSrc_pix (src : Source) (s : State) : (s.withSrc src).pix = s.pix := rfl
@[simp] theorem State.withSrc_pk (src : Source) (s : State) : (s.withSrc src).pk = s.pk := rfl
@[simp] theorem State.withSrc_src (src : Source) (s : State) : (s.withSrc src).src = src := rfl
@[simp] theorem State.withSrc_out (src : Source) (s : State) : (s.withSrc src).out = s.out := rfl
@[simp] theorem State.withSrc_inputs (src : Source) (s : State) : (s.withSrc src).inputs = s.inputs := rfl
@[simp] theorem State.withSrc_seen (src : Source) (s : State) : (s.withSrc src).seen = s.seen := rfl
@[simp] theorem State.withSrc_outOld (src : Source) (s : State) : (s.withSrc src).outOld = s.outOld := rfl
@[simp] theorem State.withSrc_view (src : Source) (s : State) : (s.withSrc src).view = s.view := rfl
@[simp] theorem State.withSrc_late (src : Source) (s : State) : (s.withSrc src).late = s.late := rfl
@[simp] theorem State.withSrc_doneRead (src : Source) (s : State) : (s.withSrc src).doneRead = s.doneRead := rfl
@[simp] theorem State.withSrc_draws (src : Source) (s : State) : (s.withSrc src).draws = s.draws := rfl

/-! ## State.withInputs -/

@[simp] theorem State.withInputs_cfg (i : List Input) (s : State) : (s.withInputs i).cfg = s.cfg := rfl
@[simp] theorem State.withInputs_convState (i : List Input) (s : State) : (s.withInputs i).convState = s.convState := rfl
@[simp] theorem State.withInputs_errCode (i : List Input) (s : State) : (s.withInputs i).errCode = s.errCode := rfl
@[simp] theorem State.withInputs_len (i : List Input) (s : State) : (s.withInputs i).len = s.len := rfl
@[simp] theorem State.withInputs_fmtR (i : List Input) (s : State) : (s.withInputs i).fmtR = s.fmtR := rfl
@[simp] theorem State.withInputs_wR (i : List Input) (s : State) : (s.withInputs i).wR = s.wR := rfl
@[simp] theorem State.withInputs_hR (i : List Input) (s : State) : (s.withInputs i).hR = s.hR := rfl
@[simp] theorem State.withInputs_aR (i : List Input) (s : State) : (s.withInputs i).aR = s.aR := rfl
@[simp] theorem State.withInputs_x (i : List Input) (s : State) : (s.withInputs i).x = s.x := rfl
@[simp] theorem State.withInputs_y (i : List Input) (s : State) : (s.withInputs i).y = s.y := rfl
@[simp] theorem State.withInputs_pend (i : List Input) (s : State) : (s.withInputs i).pend = s.pend := rfl
@[simp] theorem State.withInputs_pix (i : List Input) (s : State) : (s.withInputs i).pix = s.pix := rfl
@[simp] theorem State.withInputs_pk (i : List Input) (s : State) : (s.withInputs i).pk = s.pk := rfl
@[simp] theorem State.withInputs_src (i : List Input) (s : State) : (s.withInputs i).src = s.src := rfl
@[simp] theorem State.withInputs_out (i : List Input) (s : State) : (s.withInputs i).out = s.out := rfl
@[simp] theorem State.withInputs_inputs (i : List Input) (s : State) : (s.withInputs i).inputs = i := rfl
@[simp] theorem State.withInputs_seen (i : List Input) (s : State) : (s.withInputs i).seen = s.seen := rfl
@[simp] theorem State.withInputs_outOld (i : List Input) (s : State) : (s.withInputs i).outOld = s.outOld := rfl
@[simp] theorem State.withInputs_view (i : List Input) (s : State) : (s.withInputs i).view = s.view := rfl
@[simp] theorem State.withInputs_late (i : List Input) (s : State) : (s.withInputs i).late = s.late := rfl
@[simp] theorem State.withInputs_doneRead (i : List Input) (s : State) : (s.withInputs i).doneRead = s.doneRead := rfl
@[simp] theorem State.withInputs_draws (i : List Input) (s : State) : (s.withInputs i).draws = s.draws := rfl

/-! ## State.observed -/

@[simp] theorem State.observed_cfg (o : Observation) (s : State) : (s.observed o).cfg = s.cfg := rfl
@[simp] theorem State.observed_convState (o : Observation) (s : State) : (s.observed o).convState = s.convState := rfl
@[simp] theorem State.observed_errCode (o : Observation) (s : State) : (s.observed o).errCode = s.errCode := rfl
@[simp] theorem State.observed_len (o : Observation) (s : State) : (s.observed o).len = s.len := rfl
@[simp] theorem State.observed_fmtR (o : Observation) (s : State) : (s.observed o).fmtR = s.fmtR := rfl
@[simp] theorem State.observed_wR (o : Observation) (s : State) : (s.observed o).wR = s.wR := rfl
@[simp] theorem State.observed_hR (o : Observation) (s : State) : (s.observed o).hR = s.hR := rfl
@[simp] theorem State.observed_aR (o : Observation) (s : State) : (s.observed o).aR = s.aR := rfl
@[simp] theorem State.observed_x (o : Observation) (s : State) : (s.observed o).x = s.x := rfl
@[simp] theorem State.observed_y (o : Observation) (s : State) : (s.observed o).y = s.y := rfl
@[simp] theorem State.observed_pend (o : Observation) (s : State) : (s.observed o).pend = s.pend := rfl
@[simp] theorem State.observed_pix (o : Observation) (s : State) : (s.observed o).pix = s.pix := rfl
@[simp] theorem State.observed_pk (o : Observation) (s : State) : (s.observed o).pk = s.pk := rfl
@[simp] theorem State.observed_src (o : Observation) (s : State) : (s.observed o).src = s.src := rfl
@[simp] theorem State.observed_out (o : Observation) (s : State) : (s.observed o).out = s.out := rfl
@[simp] theorem State.observed_inputs (o : Observation) (s : State) : (s.observed o).inputs = s.inputs := rfl
@[simp] theorem State.observed_seen (o : Observation) (s : State) : (s.observed o).seen = o :: s.seen := rfl
@[simp] theorem State.observed_outOld (o : Observation) (s : State) : (s.observed o).outOld = s.outOld := rfl
@[simp] theorem State.observed_view (o : Observation) (s : State) : (s.observed o).view = s.view := rfl
@[simp] theorem State.observed_late (o : Observation) (s : State) : (s.observed o).late = s.late := rfl
@[simp] theorem State.observed_doneRead (o : Observation) (s : State) : (s.observed o).doneRead = s.doneRead := rfl
@[simp] theorem State.observed_draws (o : Observation) (s : State) : (s.observed o).draws = s.draws := rfl

/-! ## State.withDraws -/

@[simp] theorem State.withDraws_cfg (n : Nat) (s : State) : (s.withDraws n).cfg = s.cfg := rfl
@[simp] theorem State.withDraws_convState (n : Nat) (s : State) : (s.withDraws n).convState = s.convState := rfl
@[simp] theorem State.withDraws_errCode (n : Nat) (s : State) : (s.withDraws n).errCode = s.errCode := rfl
@[simp] theorem State.withDraws_len (n : Nat) (s : State) : (s.withDraws n).len = s.len := rfl
@[simp] theorem State.withDraws_fmtR (n : Nat) (s : State) : (s.withDraws n).fmtR = s.fmtR := rfl
@[simp] theorem State.withDraws_wR (n : Nat) (s : State) : (s.withDraws n).wR = s.wR := rfl
@[simp] theorem State.withDraws_hR (n : Nat) (s : State) : (s.withDraws n).hR = s.hR := rfl
@[simp] theorem State.withDraws_aR (n : Nat) (s : State) : (s.withDraws n).aR = s.aR := rfl
@[simp] theorem State.withDraws_x (n : Nat) (s : State) : (s.withDraws n).x = s.x := rfl
@[simp] theorem State.withDraws_y (n : Nat) (s : State) : (s.withDraws n).y = s.y := rfl
@[simp] theorem State.withDraws_pend (n : Nat) (s : State) : (s.withDraws n).pend = s.pend := rfl
@[simp] theorem State.withDraws_pix (n : Nat) (s : State) : (s.withDraws n).pix = s.pix := rfl
@[simp] theorem State.withDraws_pk (n : Nat) (s : State) : (s.withDraws n).pk = s.pk := rfl
@[simp] theorem State.withDraws_src (n : Nat) (s : State) : (s.withDraws n).src = s.src := rfl
@[simp] theorem State.withDraws_out (n : Nat) (s : State) : (s.withDraws n).out = s.out := rfl
@[simp] theorem State.withDraws_inputs (n : Nat) (s : State) : (s.withDraws n).inputs = s.inputs := rfl
@[simp] theorem State.withDraws_seen (n : Nat) (s : State) : (s.withDraws n).seen = s.seen := rfl
@[simp] theorem State.withDraws_outOld (n : Nat) (s : State) : (s.withDraws n).outOld = s.outOld := rfl
@[simp] theorem State.withDraws_view (n : Nat) (s : State) : (s.withDraws n).view = s.view := rfl
@[simp] theorem State.withDraws_late (n : Nat) (s : State) : (s.withDraws n).late = s.late := rfl
@[simp] theorem State.withDraws_doneRead (n : Nat) (s : State) : (s.withDraws n).doneRead = s.doneRead := rfl
@[simp] theorem State.withDraws_draws (n : Nat) (s : State) : (s.withDraws n).draws = n := rfl

/-! ## State.withDoneRead -/

@[simp] theorem State.withDoneRead_cfg (b : Bool) (s : State) : (s.withDoneRead b).cfg = s.cfg := rfl
@[simp] theorem State.withDoneRead_convState (b : Bool) (s : State) : (s.withDoneRead b).convState = s.convState := rfl
@[simp] theorem State.withDoneRead_errCode (b : Bool) (s : State) : (s.withDoneRead b).errCode = s.errCode := rfl
@[simp] theorem State.withDoneRead_len (b : Bool) (s : State) : (s.withDoneRead b).len = s.len := rfl
@[simp] theorem State.withDoneRead_fmtR (b : Bool) (s : State) : (s.withDoneRead b).fmtR = s.fmtR := rfl
@[simp] theorem State.withDoneRead_wR (b : Bool) (s : State) : (s.withDoneRead b).wR = s.wR := rfl
@[simp] theorem State.withDoneRead_hR (b : Bool) (s : State) : (s.withDoneRead b).hR = s.hR := rfl
@[simp] theorem State.withDoneRead_aR (b : Bool) (s : State) : (s.withDoneRead b).aR = s.aR := rfl
@[simp] theorem State.withDoneRead_x (b : Bool) (s : State) : (s.withDoneRead b).x = s.x := rfl
@[simp] theorem State.withDoneRead_y (b : Bool) (s : State) : (s.withDoneRead b).y = s.y := rfl
@[simp] theorem State.withDoneRead_pend (b : Bool) (s : State) : (s.withDoneRead b).pend = s.pend := rfl
@[simp] theorem State.withDoneRead_pix (b : Bool) (s : State) : (s.withDoneRead b).pix = s.pix := rfl
@[simp] theorem State.withDoneRead_pk (b : Bool) (s : State) : (s.withDoneRead b).pk = s.pk := rfl
@[simp] theorem State.withDoneRead_src (b : Bool) (s : State) : (s.withDoneRead b).src = s.src := rfl
@[simp] theorem State.withDoneRead_out (b : Bool) (s : State) : (s.withDoneRead b).out = s.out := rfl
@[simp] theorem State.withDoneRead_inputs (b : Bool) (s : State) : (s.withDoneRead b).inputs = s.inputs := rfl
@[simp] theorem State.withDoneRead_seen (b : Bool) (s : State) : (s.withDoneRead b).seen = s.seen := rfl
@[simp] theorem State.withDoneRead_outOld (b : Bool) (s : State) : (s.withDoneRead b).outOld = s.outOld := rfl
@[simp] theorem State.withDoneRead_view (b : Bool) (s : State) : (s.withDoneRead b).view = s.view := rfl
@[simp] theorem State.withDoneRead_late (b : Bool) (s : State) : (s.withDoneRead b).late = s.late := rfl
@[simp] theorem State.withDoneRead_doneRead (b : Bool) (s : State) : (s.withDoneRead b).doneRead = b := rfl
@[simp] theorem State.withDoneRead_draws (b : Bool) (s : State) : (s.withDoneRead b).draws = s.draws := rfl

/-! ## applyReset and State.resetWith -/

@[simp] theorem applyReset_cfg (s : State) : (applyReset s).cfg = s.cfg := rfl
@[simp] theorem applyReset_convState (s : State) : (applyReset s).convState = .idle := rfl
@[simp] theorem applyReset_errCode (s : State) : (applyReset s).errCode = .none := rfl
@[simp] theorem applyReset_len (s : State) : (applyReset s).len = 0#64 := rfl
@[simp] theorem applyReset_pend (s : State) : (applyReset s).pend = [] := rfl
@[simp] theorem applyReset_src (s : State) : (applyReset s).src = s.src := rfl
@[simp] theorem applyReset_out (s : State) : (applyReset s).out = Memory.overlay s.out s.late := rfl
@[simp] theorem applyReset_inputs (s : State) : (applyReset s).inputs = s.inputs := rfl
@[simp] theorem applyReset_seen (s : State) : (applyReset s).seen = s.seen := rfl
@[simp] theorem applyReset_outOld (s : State) : (applyReset s).outOld = [] := rfl
@[simp] theorem applyReset_view (s : State) : (applyReset s).view = Source.empty := rfl
@[simp] theorem applyReset_late (s : State) : (applyReset s).late = [] := rfl
@[simp] theorem applyReset_doneRead (s : State) : (applyReset s).doneRead = true := rfl
@[simp] theorem applyReset_draws (s : State) : (applyReset s).draws = s.draws := rfl

end Sys2Proof.Machine
end

