-- ==== Sys2Proof/Laws/Pending.lean ====
section
/-! SUPPORT. Laws of the pending set: membership, the canonical form and the count under `full`, `remove` and `nth`. -/

namespace Sys2Proof.Machine

theorem Pending.has_full (n i : Nat) : Pending.has i (Pending.full n) = decide (i < n) := by
  by_cases h : n = 0 <;> simp [Pending.full, Pending.has, h]

theorem Pending.wf_full (n : Nat) : Pending.wf (Pending.full n) = true := by
  by_cases h : n = 0 <;> simp [Pending.full, Pending.wf, h]; omega

@[simp] theorem Pending.count_full (n : Nat) : Pending.count (Pending.full n) = n := by
  by_cases h : n = 0 <;> simp [Pending.full, Pending.count, h]

theorem Pending.has_append (i : Nat) (p q : Pending) : Pending.has i (p ++ q) = (Pending.has i p || Pending.has i q) := by
  induction p with
  | nil => rfl
  | cons a t ih => simp [Pending.has, ih, Bool.or_assoc]

theorem Pending.has_cut (i j : Nat) (p : Span) :
    Pending.has j (p.cut i) = (decide (p.lo ≤ j) && decide (j < p.hi) && decide (j ≠ i)) := by
  simp only [Span.cut]
  split_ifs <;> simp only [Pending.has, List.append_nil, List.nil_append, List.cons_append, Bool.or_false] <;>
    rw [Bool.eq_iff_iff] <;> simp <;> omega

/-- `PEND minus { i }` holds what PEND held, but for `i`. -/
theorem Pending.has_remove (i j : Nat) (p : Pending) :
    Pending.has j (Pending.remove i p) = (Pending.has j p && decide (j ≠ i)) := by
  induction p with
  | nil => rfl
  | cons a t ih => simp only [Pending.remove, Pending.has_append, Pending.has_cut, ih, Pending.has]; grind

/-- Every span of `p` starts above `b`. -/
def SpansAbove (b : Nat) (p : Pending) : Prop := ∀ a ∈ p, b < a.lo

theorem Pending.wf_cons (a : Span) (t : Pending) :
    Pending.wf (a :: t) = true ↔ a.lo < a.hi ∧ SpansAbove a.hi t ∧ Pending.wf t = true := by
  induction t generalizing a with
  | nil => simp [Pending.wf, SpansAbove]
  | cons b t ih =>
    simp only [Pending.wf, Bool.and_eq_true, decide_eq_true_eq, SpansAbove, List.mem_cons, forall_eq_or_imp]
    constructor
    · rintro ⟨⟨h, h'⟩, hr⟩
      have hb := (ih b).1 hr
      exact ⟨h, ⟨h', fun c hc => by have := hb.2.1 c hc; omega⟩, hr⟩
    · rintro ⟨h, ⟨h', _⟩, hr⟩
      exact ⟨⟨h, h'⟩, hr⟩

theorem SpansAbove.remove {b : Nat} {p : Pending} (h : SpansAbove b p) (i : Nat) : SpansAbove b (Pending.remove i p) := by
  induction p with
  | nil => exact h
  | cons a t ih =>
    have ha := h a (by simp)
    have ht : SpansAbove b t := fun c hc => h c (by simp [hc])
    intro c hc
    simp only [Pending.remove, List.mem_append] at hc
    rcases hc with hc | hc
    · simp only [Span.cut] at hc
      split_ifs at hc <;> simp at hc <;> grind
    · exact ih ht c hc

theorem Pending.wf_remove (i : Nat) (p : Pending) (h : Pending.wf p = true) : Pending.wf (Pending.remove i p) = true := by
  induction p with
  | nil => rfl
  | cons a t ih =>
    obtain ⟨h1, h2, h3⟩ := (Pending.wf_cons a t).1 h
    have ht := ih h3
    have ha := h2.remove i
    simp only [Pending.remove, Span.cut]
    split_ifs with hi hl hr hr
    · have hr' : Pending.wf (⟨i + 1, a.hi⟩ :: Pending.remove i t) = true := (Pending.wf_cons _ _).2 ⟨hr, ha, ht⟩
      refine (Pending.wf_cons _ _).2 ⟨hl, ?_, hr'⟩
      intro c hc
      simp at hc
      rcases hc with rfl | hc
      · simp
      · have := ha c hc; simp; omega
    · refine (Pending.wf_cons _ _).2 ⟨hl, ?_, ht⟩
      intro c hc; have := ha c hc; simp; omega
    · exact (Pending.wf_cons _ _).2 ⟨hr, ha, ht⟩
    · simpa using ht
    · exact (Pending.wf_cons _ _).2 ⟨h1, ha, ht⟩

theorem Pending.not_has_of_above {b i : Nat} {p : Pending} (h : SpansAbove b p) (hi : i ≤ b) : Pending.has i p = false := by
  induction p with
  | nil => rfl
  | cons a t ih =>
    have ha := h a (by simp)
    have ht : SpansAbove b t := fun c hc => h c (by simp [hc])
    simp [Pending.has, ih ht]; omega

theorem Pending.remove_of_not_has (i : Nat) (p : Pending) (h : Pending.has i p = false) : Pending.remove i p = p := by
  induction p with
  | nil => rfl
  | cons a t ih =>
    simp [Pending.has] at h
    simp only [Pending.remove, Span.cut, ih h.2]
    split_ifs <;> simp <;> omega

/-- Taking a pending pixel out leaves one fewer. -/
theorem Pending.count_remove (i : Nat) (p : Pending) (hw : Pending.wf p = true) (h : Pending.has i p = true) :
    Pending.count (Pending.remove i p) + 1 = Pending.count p := by
  induction p with
  | nil => simp [Pending.has] at h
  | cons a t ih =>
    obtain ⟨h1, h2, h3⟩ := (Pending.wf_cons a t).1 hw
    by_cases hi : a.lo ≤ i ∧ i < a.hi
    · have hn := Pending.remove_of_not_has i t (Pending.not_has_of_above h2 (by omega))
      simp only [Pending.remove, Span.cut, hn, Pending.count]
      split_ifs <;> simp [Pending.count] <;> omega
    · have ht : Pending.has i t = true := by
        simp [Pending.has] at h; rcases h with h | h
        · omega
        · exact h
      have := ih h3 ht
      simp only [Pending.remove, Span.cut, if_neg hi, List.cons_append, List.nil_append, Pending.count]
      omega

theorem Pending.nth_has (p : Pending) (k i : Nat) (h : Pending.nth p k = some i) : Pending.has i p = true := by
  induction p generalizing k with
  | nil => simp [Pending.nth] at h
  | cons a t ih =>
    simp only [Pending.nth] at h
    split at h
    · simp at h; subst h; simp [Pending.has]; omega
    · simp [Pending.has, ih _ h]

theorem Pending.nth_isSome (p : Pending) (k : Nat) (h : k < Pending.count p) : ∃ i, Pending.nth p k = some i := by
  induction p generalizing k with
  | nil => simp [Pending.count] at h
  | cons a t ih =>
    simp only [Pending.nth]
    split
    · exact ⟨_, rfl⟩
    · exact ih _ (by simp [Pending.count] at h; omega)

theorem Pending.eq_nil_iff_count (p : Pending) (hw : Pending.wf p = true) : p = [] ↔ Pending.count p = 0 := by
  cases p with
  | nil => simp [Pending.count]
  | cons a t => have := ((Pending.wf_cons a t).1 hw).1; simp [Pending.count]; omega

theorem Pending.eq_nil_iff_no_member (p : Pending) (hw : Pending.wf p = true) :
    p = [] ↔ ∀ i, Pending.has i p = false := by
  cases p with
  | nil => simp [Pending.has]
  | cons a t =>
    have := ((Pending.wf_cons a t).1 hw).1
    simp only [reduceCtorEq, false_iff, not_forall]
    exact ⟨a.lo, by simp [Pending.has]; omega⟩

/-- The least pending index is pending, and no pending index is below it. -/
theorem Pending.least_spec (p : Pending) (hw : Pending.wf p = true) (i : Nat) (h : Pending.least p = some i) :
    Pending.has i p = true ∧ ∀ j, Pending.has j p = true → i ≤ j := by
  cases p with
  | nil => simp [Pending.least] at h
  | cons a t =>
    simp [Pending.least] at h
    subst h
    obtain ⟨h1, h2, _⟩ := (Pending.wf_cons a t).1 hw
    refine ⟨by simp [Pending.has]; omega, fun j hj => ?_⟩
    by_contra hlt
    have := Pending.not_has_of_above h2 (i := j) (by omega)
    simp [Pending.has, this] at hj
    omega

end Sys2Proof.Machine
end

