-- ==== Sys2Proof/Laws/Raster.lean ====
section
/-! SUPPORT. Laws of the raster order and of the reference function: length, and the element or byte at an index
(spec/41_raster_serializer.md R119, R121, R124). -/

namespace Sys2Proof.Machine

/-- A list of blocks of one length, joined: its length. -/
theorem flatMap_length_const {α β : Type} (l : List α) (g : α → List β) (n : Nat) (h : ∀ a ∈ l, (g a).length = n) :
    (l.flatMap g).length = l.length * n := by
  induction l with
  | nil => simp
  | cons a t ih =>
    rw [List.flatMap_cons, List.length_append, ih (fun b hb => h b (by simp [hb])), h a (by simp), List.length_cons,
      Nat.add_mul]
    omega

/-- A list of blocks of one length, joined: its element at an index. -/
theorem flatMap_getElem_const {α β : Type} (l : List α) (g : α → List β) (n i k : Nat) (h : ∀ a ∈ l, (g a).length = n)
    (hk : k < n) : (l.flatMap g)[i * n + k]? = (l[i]?).bind fun a => (g a)[k]? := by
  induction l generalizing i with
  | nil => simp
  | cons a t ih =>
    have ha : (g a).length = n := h a (by simp)
    cases i with
    | zero => simp [List.flatMap_cons, List.getElem?_append, ha, hk]
    | succ i =>
      have hge : ¬ (i + 1) * n + k < (g a).length := by rw [ha, Nat.add_mul]; omega
      have hsub : (i + 1) * n + k - n = i * n + k := by rw [Nat.add_mul]; omega
      rw [List.flatMap_cons, List.getElem?_append, if_neg hge, ha, hsub, ih i (fun b hb => h b (by simp [hb]))]
      simp

@[simp] theorem rasterOrder_length (w h : Nat) : (rasterOrder w h).length = w * h := by
  rw [rasterOrder, flatMap_length_const _ _ w (by simp), List.length_range, Nat.mul_comm]

/-- R119: the `n`-th coordinate of the raster order is `(n mod W, n div W)`. -/
theorem rasterOrder_getElem (w h n : Nat) (hn : n < w * h) : (rasterOrder w h)[n]? = some (n % w, n / w) := by
  have hw : 0 < w := by rcases Nat.eq_zero_or_pos w with rfl | h <;> [omega; exact h]
  have hdiv : n / w < h := Nat.div_lt_of_lt_mul hn
  have hmod : n % w < w := Nat.mod_lt _ hw
  have hsplit : n = n / w * w + n % w := by rw [Nat.mul_comm]; exact (Nat.div_add_mod n w).symm
  conv_lhs => rw [hsplit]
  rw [rasterOrder, flatMap_getElem_const _ _ w _ _ (by simp) hmod]
  simp [hdiv, hmod]

/-- R121: the length of a packed source. -/
theorem packBytes_length (f : OutputFormat) (src : Source) :
    (packBytes f src).length = conversionLength src.width src.height f := by
  rw [packBytes, flatMap_length_const _ _ (bpp f) (by simp), rasterOrder_length, conversionLength]

/-- R124: the bytes of pixel `i`, which stands at column `i mod W` of row `i div W`. -/
theorem packBytes_getElem (f : OutputFormat) (src : Source) (i k : Nat) (hi : i < src.width.toNat * src.height.toNat)
    (hk : k < bpp f) :
    (packBytes f src)[i * bpp f + k]? =
      (encpix f (src.pixel (i % src.width.toNat) (i / src.width.toNat)) src.hasAlpha)[k]? := by
  rw [packBytes, flatMap_getElem_const _ _ (bpp f) _ _ (by simp) hk, rasterOrder_getElem _ _ _ hi]
  rfl

/-- The linear index of a coordinate of the grid is below `W * H`. -/
theorem linear_lt {x y w h : Nat} (hx : x < w) (hy : y < h) : y * w + x < w * h := by
  have : (y + 1) * w ≤ h * w := Nat.mul_le_mul_right w hy
  rw [Nat.add_mul] at this
  rw [Nat.mul_comm w h]; omega

end Sys2Proof.Machine
end

