-- ==== Sys2Proof/Laws/SparseMap.lean ====
section
/-! SUPPORT. Laws of sparse maps and of memory: read after write, what a write leaves alone, and that every memory operation
keeps the canonical form. -/

namespace Sys2Proof.Machine

/-! ## Sparse maps -/

theorem lookup_insertKey {α : Type} (m : List (Nat × α)) (k j : Nat) (v : α) :
    lookup (insertKey k v m) j = if j = k then some v else lookup m j := by
  induction m with
  | nil => simp [insertKey, lookup]
  | cons p t ih =>
    simp only [insertKey]
    split
    · simp [lookup]
    · split
      · subst_vars; by_cases h : j = p.1 <;> simp [lookup, h]
      · by_cases h : j = p.1
        · have : ¬ j = k := by omega
          simp [lookup, h]; omega
        · simp [lookup, h, ih]

theorem lookup_eraseKey {α : Type} (m : List (Nat × α)) (k j : Nat) :
    lookup (eraseKey k m) j = if j = k then none else lookup m j := by
  induction m with
  | nil => simp [eraseKey, lookup]
  | cons p t ih =>
    simp only [eraseKey]
    split
    · subst_vars; rw [ih]; by_cases h : j = p.1 <;> simp [lookup, h]
    · by_cases h : j = p.1
      · have : ¬ j = k := by omega
        simp [lookup, h]; omega
      · simp [lookup, h, ih]

/-- Every key of `m` is above `b`. -/
def KeysAbove {α : Type} (b : Nat) (m : List (Nat × α)) : Prop := ∀ p ∈ m, b < p.1

theorem keysRise_cons {α : Type} (p : Nat × α) (t : List (Nat × α)) :
    keysRise (p :: t) = true ↔ KeysAbove p.1 t ∧ keysRise t = true := by
  induction t generalizing p with
  | nil => simp [keysRise, KeysAbove]
  | cons q t ih =>
    simp only [keysRise, Bool.and_eq_true, decide_eq_true_eq, KeysAbove, List.mem_cons, forall_eq_or_imp]
    constructor
    · rintro ⟨h, hr⟩
      refine ⟨⟨h, fun r hr' => ?_⟩, hr⟩
      have := ((ih q).1 hr).1 r hr'
      omega
    · rintro ⟨⟨h, _⟩, hr⟩
      exact ⟨h, hr⟩

theorem KeysAbove.insertKey {α : Type} {b : Nat} {m : List (Nat × α)} (h : KeysAbove b m) (k : Nat) (v : α) (hk : b < k) :
    KeysAbove b (insertKey k v m) := by
  induction m with
  | nil => simpa [Machine.insertKey, KeysAbove] using hk
  | cons p t ih =>
    have hp := h p (by simp)
    have ht : KeysAbove b t := fun q hq => h q (by simp [hq])
    simp only [Machine.insertKey]
    split
    · simp only [KeysAbove, List.mem_cons, forall_eq_or_imp]; exact ⟨hk, hp, ht⟩
    · split
      · simp only [KeysAbove, List.mem_cons, forall_eq_or_imp]; exact ⟨hk, ht⟩
      · simp only [KeysAbove, List.mem_cons, forall_eq_or_imp]; exact ⟨hp, ih ht⟩

theorem KeysAbove.eraseKey {α : Type} {b : Nat} {m : List (Nat × α)} (h : KeysAbove b m) (k : Nat) :
    KeysAbove b (eraseKey k m) := by
  induction m with
  | nil => exact h
  | cons p t ih =>
    have hp := h p (by simp)
    have ht : KeysAbove b t := fun q hq => h q (by simp [hq])
    simp only [Machine.eraseKey]
    split
    · exact ih ht
    · simp only [KeysAbove, List.mem_cons, forall_eq_or_imp]; exact ⟨hp, ih ht⟩

theorem keysRise_insertKey {α : Type} (m : List (Nat × α)) (k : Nat) (v : α) (h : keysRise m = true) :
    keysRise (insertKey k v m) = true := by
  induction m with
  | nil => simp [insertKey, keysRise]
  | cons p t ih =>
    have ⟨hp, ht⟩ := (keysRise_cons p t).1 h
    simp only [insertKey]
    split
    · next hk =>
      refine (keysRise_cons _ _).2 ⟨?_, h⟩
      simp only [KeysAbove, List.mem_cons, forall_eq_or_imp]
      exact ⟨hk, fun q hq => by have := hp q hq; omega⟩
    · split
      · next hk => exact (keysRise_cons _ _).2 ⟨by simpa [hk] using hp, ht⟩
      · exact (keysRise_cons _ _).2 ⟨hp.insertKey k v (by omega), ih ht⟩

theorem keysRise_eraseKey {α : Type} (m : List (Nat × α)) (k : Nat) (h : keysRise m = true) :
    keysRise (eraseKey k m) = true := by
  induction m with
  | nil => exact h
  | cons p t ih =>
    have ⟨hp, ht⟩ := (keysRise_cons p t).1 h
    simp only [eraseKey]
    split
    · exact ih ht
    · exact (keysRise_cons _ _).2 ⟨hp.eraseKey k, ih ht⟩

/-- A listed entry is what a map in canonical form reads. -/
theorem lookup_of_mem {α : Type} (m : List (Nat × α)) (k : Nat) (v : α) (hm : keysRise m = true) (h : (k, v) ∈ m) :
    lookup m k = some v := by
  induction m with
  | nil => simp at h
  | cons p t ih =>
    obtain ⟨habove, ht⟩ := (keysRise_cons p t).1 hm
    rcases List.mem_cons.1 h with rfl | h
    · simp [lookup]
    · have hlt : p.1 < k := habove (k, v) h
      rw [lookup, if_neg (by omega), ih ht h]

/-- A key with no entry reads none. -/
theorem lookup_eq_none {α : Type} (m : List (Nat × α)) (k : Nat) (h : ∀ v, (k, v) ∉ m) : lookup m k = none := by
  induction m with
  | nil => rfl
  | cons p t ih =>
    have hk : k ≠ p.1 := by rintro rfl; exact h p.2 (by simp)
    rw [lookup, if_neg hk, ih fun v hv => h v (by simp [hv])]

/-- A sparse map that lists no key lists nothing. -/
theorem eq_nil_of_lookup_none {α : Type} (m : List (Nat × α)) (h : ∀ k, lookup m k = none) : m = [] := by
  cases m with
  | nil => rfl
  | cons p t => exact absurd (h p.1) (by simp [lookup])

/-! ## Memory -/

@[simp] theorem Memory.read_nil (a : Nat) : Memory.read [] a = none := rfl

theorem Memory.read_write (m : Memory) (off a : Nat) (v : Byte) :
    Memory.read (Memory.write m off v) a = if a = off then some v else Memory.read m a :=
  lookup_insertKey m off a v

@[simp] theorem Memory.read_write_same (m : Memory) (off : Nat) (v : Byte) :
    Memory.read (Memory.write m off v) off = some v := by simp [Memory.read_write]

theorem Memory.read_write_other (m : Memory) (off a : Nat) (v : Byte) (h : a ≠ off) :
    Memory.read (Memory.write m off v) a = Memory.read m a := by simp [Memory.read_write, h]

theorem Memory.read_erase (m : Memory) (off a : Nat) :
    Memory.read (Memory.erase m off) a = if a = off then none else Memory.read m a :=
  lookup_eraseKey m off a

theorem Memory.eq_nil_of_read_none (m : Memory) (h : ∀ a, Memory.read m a = none) : m = [] :=
  eq_nil_of_lookup_none m h

theorem Memory.wf_nil : Memory.wf [] = true := rfl

theorem Memory.write_keeps_wf (m : Memory) (off : Nat) (v : Byte) (h : Memory.wf m = true) :
    Memory.wf (Memory.write m off v) = true := keysRise_insertKey m off v h

theorem Memory.erase_keeps_wf (m : Memory) (off : Nat) (h : Memory.wf m = true) :
    Memory.wf (Memory.erase m off) = true := keysRise_eraseKey m off h

theorem Memory.overlay_keeps_wf (m l : Memory) (h : Memory.wf m = true) : Memory.wf (Memory.overlay m l) = true := by
  induction l generalizing m with
  | nil => exact h
  | cons p t ih => exact ih _ (Memory.write_keeps_wf m p.1 p.2 h)

@[simp] theorem Memory.overlay_nil (m : Memory) : Memory.overlay m [] = m := rfl

theorem State.reset_memory_wf : Memory.wf State.reset.out = true := rfl

@[simp] theorem Memory.slice_length (m : Memory) (off n : Nat) : (Memory.slice m off n).length = n := by
  induction n generalizing off with
  | zero => rfl
  | succ n ih => simp [Memory.slice, ih]

theorem Memory.slice_getElem (m : Memory) (off n k : Nat) (h : k < n) :
    (Memory.slice m off n)[k]? = some (Memory.read m (off + k)) := by
  induction n generalizing off k with
  | zero => omega
  | succ n ih =>
    cases k with
    | zero => simp [Memory.slice]
    | succ k =>
      simp only [Memory.slice, List.getElem?_cons_succ]
      rw [ih (off + 1) k (by omega)]
      congr 2; omega

end Sys2Proof.Machine
end

