-- ==== Sys2Proof/Laws/PixelStep.lean ====
section
/-! SUPPORT. What the shared operations of a pixel step can do, said once: MemWrite of a byte list, the landing of host writes,
the processing of one pixel, and the two forms of the pixel step (spec/41_raster_serializer.md R133, R134, R136). -/

namespace Sys2Proof.Machine

/-! ## MemWrite -/

theorem memWrite_next (off : Nat) (v : Byte) (s : State) (h : off < s.len.toNat) :
    memWrite off v s = .next (s.withBuffers (Memory.write s.out off v) s.outOld s.late) := by
  simp [memWrite, h]

/-- MemWrites inside `[0, LEN)` all happen; only OUT changes, and only at their offsets. -/
theorem memWriteBytes_spec (off : Nat) (vs : List Byte) (s : State) (h : off + vs.length ≤ s.len.toNat) :
    ∃ m, memWriteBytes off vs s = .next (s.withBuffers m s.outOld s.late) ∧
      (Memory.wf s.out = true → Memory.wf m = true) ∧
      ∀ a, Memory.read m a = if off ≤ a ∧ a < off + vs.length then vs[a - off]? else Memory.read s.out a := by
  induction vs generalizing off s with
  | nil => exact ⟨s.out, rfl, id, fun a => by simp⟩
  | cons v t ih =>
    simp only [List.length_cons] at h
    obtain ⟨m, hm, hw, hr⟩ := ih (off + 1) (s.withBuffers (Memory.write s.out off v) s.outOld s.late)
      (by simp; omega)
    refine ⟨m, ?_, fun hs => hw (Memory.write_keeps_wf _ _ _ hs), fun a => ?_⟩
    · rw [memWriteBytes, memWrite_next _ _ _ (by omega)]; exact hm
    · rw [hr a]
      simp only [State.withBuffers_out, Memory.read_write, List.length_cons]
      by_cases h1 : a = off
      · subst h1; simp
      · by_cases h2 : off + 1 ≤ a ∧ a < off + 1 + t.length
        · have : a - off = (a - (off + 1)) + 1 := by omega
          rw [if_pos h2, if_pos (by omega), this, List.getElem?_cons_succ]
        · rw [if_neg h2, if_neg h1, if_neg (by omega)]

/-! ## Landing of host writes -/

theorem landLate_spec (off n : Nat) (s : State) :
    ∃ m l, landLate off n s = s.withBuffers m s.outOld l ∧
      (Memory.wf s.out = true → Memory.wf m = true) ∧ (Memory.wf s.late = true → Memory.wf l = true) ∧
      (∀ a, Memory.read m a =
        if off ≤ a ∧ a < off + n then (Memory.read s.late a).or (Memory.read s.out a) else Memory.read s.out a) ∧
      ∀ a, Memory.read l a = if off ≤ a ∧ a < off + n then none else Memory.read s.late a := by
  induction n generalizing off s with
  | zero => exact ⟨s.out, s.late, rfl, id, id, fun a => by rw [if_neg (by omega)], fun a => by rw [if_neg (by omega)]⟩
  | succ n ih =>
    cases hv : Memory.read s.late off with
    | none =>
      obtain ⟨m, l, he, hw, hl, hm, hr⟩ := ih (off + 1) s
      refine ⟨m, l, by simp only [landLate, hv]; exact he, hw, hl, fun a => ?_, fun a => ?_⟩
      · rw [hm a]
        by_cases h1 : a = off
        · subst h1; simp [hv]
        · have : off + 1 ≤ a ∧ a < off + 1 + n ↔ off ≤ a ∧ a < off + (n + 1) := by omega
          simp only [this]
      · rw [hr a]
        by_cases h1 : a = off
        · subst h1; simp [hv]
        · have : off + 1 ≤ a ∧ a < off + 1 + n ↔ off ≤ a ∧ a < off + (n + 1) := by omega
          simp only [this]
    | some v =>
      obtain ⟨m, l, he, hw, hl, hm, hr⟩ :=
        ih (off + 1) (s.withBuffers (Memory.write s.out off v) s.outOld (Memory.erase s.late off))
      simp only [State.withBuffers_out, State.withBuffers_late, Memory.read_write, Memory.read_erase] at hm hr
      refine ⟨m, l, by simp only [landLate, hv]; exact he, fun h => hw (Memory.write_keeps_wf _ _ _ h),
        fun h => hl (Memory.erase_keeps_wf _ _ h), fun a => ?_, fun a => ?_⟩
      · rw [hm a]
        by_cases h1 : a = off
        · subst h1; simp [hv]
        · have : off + 1 ≤ a ∧ a < off + 1 + n ↔ off ≤ a ∧ a < off + (n + 1) := by omega
          simp only [this, if_neg h1]
      · rw [hr a]
        by_cases h1 : a = off
        · subst h1; simp
        · have : off + 1 ≤ a ∧ a < off + 1 + n ↔ off ≤ a ∧ a < off + (n + 1) := by omega
          simp only [this, if_neg h1]

/-! ## One pixel -/

/-- The state after pixel `i` of format `f` has been processed, but for the cursor and STATE: `m` and `l` are OUT and the host
writes still outstanding. -/
def afterPixel (f : OutputFormat) (c : Channels) (i : Nat) (m l : Memory) (s : State) : State :=
  ((s.withPixel (latchChannels s.aR c) (packedWord f (latchChannels s.aR c))).withBuffers m s.outOld l).withPend
    (Pending.remove i s.pend)

/-- What one pixel's processing leaves in OUT (`m`) and in the outstanding host writes (`l`): its own `bpp` bytes hold
`encpix`, or a host write that was to land after it; every other byte is as it was. -/
structure PixelWrites (f : OutputFormat) (c : Channels) (i : Nat) (s : State) (m l : Memory) : Prop where
  outForm  : Memory.wf s.out = true → Memory.wf m = true
  lateForm : Memory.wf s.late = true → Memory.wf l = true
  own      : ∀ k, k < bpp f →
    Memory.read m (i * bpp f + k) = (Memory.read s.late (i * bpp f + k)).or ((encpix f c s.aR)[k]?)
  other    : ∀ a, a < i * bpp f ∨ i * bpp f + bpp f ≤ a → Memory.read m a = Memory.read s.out a
  lateOwn  : ∀ k, k < bpp f → Memory.read l (i * bpp f + k) = none
  lateRest : ∀ a, a < i * bpp f ∨ i * bpp f + bpp f ≤ a → Memory.read l a = Memory.read s.late a

theorem processPixel_spec (x y : Nat) (s : State) (f : OutputFormat) (hx : x < s.wR.toNat) (hy : y < s.hR.toNat)
    (hf : formatOfTag s.fmtR = some f) (hl : (y * s.wR.toNat + x) * bpp f + bpp f ≤ s.len.toNat) :
    ∃ m l, processPixel x y s =
        .next (afterPixel f (asChannels s.aR (s.view.stored x y)) (y * s.wR.toNat + x) m l s) ∧
      PixelWrites f (asChannels s.aR (s.view.stored x y)) (y * s.wR.toNat + x) s m l := by
  have hp : pixRead x y s = some (asChannels s.aR (s.view.stored x y)) := by simp [pixRead, hx, hy]
  generalize asChannels s.aR (s.view.stored x y) = c at hp ⊢
  obtain ⟨m0, hm0, hw0, hr0⟩ := memWriteBytes_spec ((y * s.wR.toNat + x) * bpp f)
    (serialize f (packedWord f (latchChannels s.aR c)))
    (s.withPixel (latchChannels s.aR c) (packedWord f (latchChannels s.aR c))) (by simpa using hl)
  obtain ⟨m, l, he, hw, hwl, hm, hr⟩ := landLate_spec ((y * s.wR.toNat + x) * bpp f) (bpp f)
    ((s.withPixel (latchChannels s.aR c) (packedWord f (latchChannels s.aR c))).withBuffers m0 s.outOld s.late)
  simp only [State.withBuffers_out, State.withBuffers_late, serialize_packedWord, encpix_length,
    State.withPixel_out] at hm hr hr0
  refine ⟨m, l, ?_, fun h => hw (hw0 h), hwl, fun k hk => ?_, fun a ha => ?_, fun k hk => ?_, fun a ha => ?_⟩
  · simp only [processPixel, hp, hf, hm0, andThen]
    rw [show (s.withPixel (latchChannels s.aR c) (packedWord f (latchChannels s.aR c))).outOld = s.outOld from rfl,
      show (s.withPixel (latchChannels s.aR c) (packedWord f (latchChannels s.aR c))).late = s.late from rfl, he]
    rfl
  · rw [hm, if_pos (by omega), hr0, if_pos (by omega), Nat.add_sub_cancel_left]
  · rw [hm, if_neg (by omega), hr0, if_neg (by omega)]
  · rw [hr, if_pos (by omega)]
  · rw [hr, if_neg (by omega)]

/-! ## The two forms of the pixel step -/

/-- The coordinate of a pending pixel lies in the grid, and its bytes lie below LEN. -/
theorem BusyInv.pixel_fits {s : State} (hb : BusyInv s) {f : OutputFormat} (hf : formatOfTag s.fmtR = some f) {i : Nat}
    (hi : i < s.wR.toNat * s.hR.toNat) :
    i % s.wR.toNat < s.wR.toNat ∧ i / s.wR.toNat < s.hR.toNat ∧
      i / s.wR.toNat * s.wR.toNat + i % s.wR.toNat = i ∧ i * bpp f + bpp f ≤ s.len.toNat := by
  refine ⟨Nat.mod_lt _ hb.width, Nat.div_lt_of_lt_mul hi, by rw [Nat.mul_comm]; exact Nat.div_add_mod _ _, ?_⟩
  obtain ⟨g, hg, hlen⟩ := hb.format
  obtain rfl : f = g := by simpa [hf] using hg
  have : (i + 1) * bpp f ≤ s.wR.toNat * s.hR.toNat * bpp f := Nat.mul_le_mul_right _ hi
  rw [hlen, conversionLength]
  rw [Nat.add_mul] at this; omega

/-- The pixel `i` of the grid, as the running conversion reads it. -/
def latchedPixel (i : Nat) (s : State) : Channels :=
  asChannels s.aR (s.view.stored (i % s.wR.toNat) (i / s.wR.toNat))

/-- The byte of the running conversion, by pixel and byte of the pixel. -/
theorem packBytes_latched (f : OutputFormat) (s : State) (i k : Nat) (hi : i < s.wR.toNat * s.hR.toNat) (hk : k < bpp f) :
    (packBytes f (latchedSource s))[i * bpp f + k]? = (encpix f (latchedPixel i s) s.aR)[k]? :=
  packBytes_getElem f (latchedSource s) i k hi hk

/-- The state after a whole pixel step that took pixel `i`: its cursor and draw counter are `cx`, `cy` and `d`. -/
def steppedPixel (f : OutputFormat) (c : Channels) (i : Nat) (m l : Memory) (cx cy : U32) (d : Nat) (s : State) : State :=
  { s with
    pix := latchChannels s.aR c, pk := packedWord f (latchChannels s.aR c), x := cx, y := cy, draws := d
    pend := Pending.remove i s.pend, out := m, late := l
    convState := if Pending.remove i s.pend = [] then .done else .busy }

@[simp] theorem steppedPixel_cfg (f : OutputFormat) (c : Channels) (i : Nat) (m l : Memory) (cx cy : U32) (d : Nat) (s : State) :
    (steppedPixel f c i m l cx cy d s).cfg = s.cfg := rfl
@[simp] theorem steppedPixel_convState (f : OutputFormat) (c : Channels) (i : Nat) (m l : Memory) (cx cy : U32) (d : Nat) (s : State) :
    (steppedPixel f c i m l cx cy d s).convState = if Pending.remove i s.pend = [] then .done else .busy := rfl
@[simp] theorem steppedPixel_errCode (f : OutputFormat) (c : Channels) (i : Nat) (m l : Memory) (cx cy : U32) (d : Nat) (s : State) :
    (steppedPixel f c i m l cx cy d s).errCode = s.errCode := rfl
@[simp] theorem steppedPixel_len (f : OutputFormat) (c : Channels) (i : Nat) (m l : Memory) (cx cy : U32) (d : Nat) (s : State) :
    (steppedPixel f c i m l cx cy d s).len = s.len := rfl
@[simp] theorem steppedPixel_fmtR (f : OutputFormat) (c : Channels) (i : Nat) (m l : Memory) (cx cy : U32) (d : Nat) (s : State) :
    (steppedPixel f c i m l cx cy d s).fmtR = s.fmtR := rfl
@[simp] theorem steppedPixel_wR (f : OutputFormat) (c : Channels) (i : Nat) (m l : Memory) (cx cy : U32) (d : Nat) (s : State) :
    (steppedPixel f c i m l cx cy d s).wR = s.wR := rfl
@[simp] theorem steppedPixel_hR (f : OutputFormat) (c : Channels) (i : Nat) (m l : Memory) (cx cy : U32) (d : Nat) (s : State) :
    (steppedPixel f c i m l cx cy d s).hR = s.hR := rfl
@[simp] theorem steppedPixel_aR (f : OutputFormat) (c : Channels) (i : Nat) (m l : Memory) (cx cy : U32) (d : Nat) (s : State) :
    (steppedPixel f c i m l cx cy d s).aR = s.aR := rfl
@[simp] theorem steppedPixel_x (f : OutputFormat) (c : Channels) (i : Nat) (m l : Memory) (cx cy : U32) (d : Nat) (s : State) :
    (steppedPixel f c i m l cx cy d s).x = cx := rfl
@[simp] theorem steppedPixel_y (f : OutputFormat) (c : Channels) (i : Nat) (m l : Memory) (cx cy : U32) (d : Nat) (s : State) :
    (steppedPixel f c i m l cx cy d s).y = cy := rfl
@[simp] theorem steppedPixel_pend (f : OutputFormat) (c : Channels) (i : Nat) (m l : Memory) (cx cy : U32) (d : Nat) (s : State) :
    (steppedPixel f c i m l cx cy d s).pend = Pending.remove i s.pend := rfl
@[simp] theorem steppedPixel_pix (f : OutputFormat) (c : Channels) (i : Nat) (m l : Memory) (cx cy : U32) (d : Nat) (s : State) :
    (steppedPixel f c i m l cx cy d s).pix = latchChannels s.aR c := rfl
@[simp] theorem steppedPixel_pk (f : OutputFormat) (c : Channels) (i : Nat) (m l : Memory) (cx cy : U32) (d : Nat) (s : State) :
    (steppedPixel f c i m l cx cy d s).pk = packedWord f (latchChannels s.aR c) := rfl
@[simp] theorem steppedPixel_src (f : OutputFormat) (c : Channels) (i : Nat) (m l : Memory) (cx cy : U32) (d : Nat) (s : State) :
    (steppedPixel f c i m l cx cy d s).src = s.src := rfl
@[simp] theorem steppedPixel_out (f : OutputFormat) (c : Channels) (i : Nat) (m l : Memory) (cx cy : U32) (d : Nat) (s : State) :
    (steppedPixel f c i m l cx cy d s).out = m := rfl
@[simp] theorem steppedPixel_inputs (f : OutputFormat) (c : Channels) (i : Nat) (m l : Memory) (cx cy : U32) (d : Nat) (s : State) :
    (steppedPixel f c i m l cx cy d s).inputs = s.inputs := rfl
@[simp] theorem steppedPixel_seen (f : OutputFormat) (c : Channels) (i : Nat) (m l : Memory) (cx cy : U32) (d : Nat) (s : State) :
    (steppedPixel f c i m l cx cy d s).seen = s.seen := rfl
@[simp] theorem steppedPixel_outOld (f : OutputFormat) (c : Channels) (i : Nat) (m l : Memory) (cx cy : U32) (d : Nat) (s : State) :
    (steppedPixel f c i m l cx cy d s).outOld = s.outOld := rfl
@[simp] theorem steppedPixel_view (f : OutputFormat) (c : Channels) (i : Nat) (m l : Memory) (cx cy : U32) (d : Nat) (s : State) :
    (steppedPixel f c i m l cx cy d s).view = s.view := rfl
@[simp] theorem steppedPixel_late (f : OutputFormat) (c : Channels) (i : Nat) (m l : Memory) (cx cy : U32) (d : Nat) (s : State) :
    (steppedPixel f c i m l cx cy d s).late = l := rfl
@[simp] theorem steppedPixel_doneRead (f : OutputFormat) (c : Channels) (i : Nat) (m l : Memory) (cx cy : U32) (d : Nat) (s : State) :
    (steppedPixel f c i m l cx cy d s).doneRead = s.doneRead := rfl
@[simp] theorem steppedPixel_draws (f : OutputFormat) (c : Channels) (i : Nat) (m l : Memory) (cx cy : U32) (d : Nat) (s : State) :
    (steppedPixel f c i m l cx cy d s).draws = d := rfl

/-- The state after a whole pixel step, as the step builds it. -/
theorem steppedPixel_eq (f : OutputFormat) (c : Channels) (i : Nat) (m l : Memory) (cx cy : U32) (d : Nat) (s : State) :
    ((((afterPixel f c i m l s).withCursor cx cy).withDraws d).withConvState
      (if Pending.remove i s.pend = [] then .done else .busy)) = steppedPixel f c i m l cx cy d s := by
  apply State.ext <;> simp [afterPixel]

/-- R136, for a state that is BUSY. -/
theorem completeIfEmpty_busy (u : State) (h : u.convState = .busy) :
    completeIfEmpty u = u.withConvState (if u.pend = [] then .done else .busy) := by
  unfold completeIfEmpty
  split_ifs with hp
  · rfl
  · cases u; simp at h; subst h; rfl

/-- R134: the next column of the same row. -/
theorem advance_row (s : State) (h : s.x.toNat + 1 < s.wR.toNat) : advance s = s.withCursor (s.x + 1#32) s.y := by
  simp [advance, h]

/-- R134: column 0 of the next row. -/
theorem advance_wrap (s : State) (h : s.wR.toNat ≤ s.x.toNat + 1) : advance s = s.withCursor 0#32 (s.y + 1#32) := by
  simp [advance, Nat.not_lt.2 h]

/-- The linear index of a coordinate gives the coordinate back. -/
theorem linear_split {x w : Nat} (y : Nat) (hx : x < w) : (y * w + x) % w = x ∧ (y * w + x) / w = y := by
  constructor
  · rw [Nat.mul_comm, Nat.mul_add_mod, Nat.mod_eq_of_lt hx]
  · rw [Nat.mul_comm, Nat.mul_add_div (by omega), Nat.div_eq_of_lt hx, Nat.add_zero]

/-- Under `Any`, every pending pixel can be chosen, and this is what the step does. -/
theorem pixelStepChoosing_spec (i : Nat) (s : State) (hb : BusyInv s) (hs : s.convState = .busy)
    (hi : Pending.has i s.pend = true) :
    ∃ f m l, formatOfTag s.fmtR = some f ∧
      pixelStepChoosing i s =
        .next (steppedPixel f (latchedPixel i s) i m l (Config.freeCursorX s.draws) (Config.freeCursorY s.draws)
          (s.draws + 1) s) ∧
      PixelWrites f (latchedPixel i s) i s m l := by
  obtain ⟨f, hf, _⟩ := hb.format
  obtain ⟨hx, hy, hsplit, hl⟩ := hb.pixel_fits hf (hb.inGrid i hi)
  obtain ⟨m, l, he, hw⟩ := processPixel_spec _ _ s f hx hy hf (by rw [hsplit]; exact hl)
  rw [hsplit] at he hw
  refine ⟨f, m, l, hf, ?_, hw⟩
  simp only [pixelStepChoosing, hi, if_true, he, andThen]
  rw [completeIfEmpty_busy _ (by exact hs), ← steppedPixel_eq]
  rfl

/-- Under `RowMajor`, the step takes the pixel under the cursor, and this is what it does. -/
theorem pixelStepRowMajor_spec (s : State) (hb : BusyInv s) (hs : s.convState = .busy)
    (ho : s.cfg.issueOrder = .rowMajor) :
    ∃ f m l cx cy, formatOfTag s.fmtR = some f ∧
      pixelStepRowMajor s =
        .next (steppedPixel f (latchedPixel (s.y.toNat * s.wR.toNat + s.x.toNat) s)
          (s.y.toNat * s.wR.toNat + s.x.toNat) m l cx cy s.draws s) ∧
      PixelWrites f (latchedPixel (s.y.toNat * s.wR.toNat + s.x.toNat) s) (s.y.toNat * s.wR.toNat + s.x.toNat) s m l ∧
      ((s.x.toNat + 1 < s.wR.toNat ∧ cx = s.x + 1#32 ∧ cy = s.y) ∨
        (s.wR.toNat ≤ s.x.toNat + 1 ∧ cx = 0#32 ∧ cy = s.y + 1#32)) := by
  obtain ⟨f, hf, _⟩ := hb.format
  obtain ⟨hx, hy, _⟩ := hb.cursor ho
  obtain ⟨hmod, hdiv⟩ := linear_split s.y.toNat hx
  obtain ⟨_, _, _, hl⟩ := hb.pixel_fits hf (linear_lt hx hy)
  obtain ⟨m, l, he, hw⟩ := processPixel_spec s.x.toNat s.y.toNat s f hx hy hf hl
  have hc : asChannels s.aR (s.view.stored s.x.toNat s.y.toNat) =
      latchedPixel (s.y.toNat * s.wR.toNat + s.x.toNat) s := by simp [latchedPixel, hmod, hdiv]
  rw [hc] at he hw
  generalize s.y.toNat * s.wR.toNat + s.x.toNat = i at he hw ⊢
  by_cases hlast : s.x.toNat + 1 < s.wR.toNat
  · refine ⟨f, m, l, s.x + 1#32, s.y, hf, ?_, hw, .inl ⟨hlast, rfl, rfl⟩⟩
    simp only [pixelStepRowMajor, he, andThen]
    rw [advance_row (afterPixel f (latchedPixel i s) i m l s) hlast, completeIfEmpty_busy _ (by exact hs),
      ← steppedPixel_eq]
    rfl
  · refine ⟨f, m, l, 0#32, s.y + 1#32, hf, ?_, hw, .inr ⟨by omega, rfl, rfl⟩⟩
    simp only [pixelStepRowMajor, he, andThen]
    rw [advance_wrap (afterPixel f (latchedPixel i s) i m l s) (by exact Nat.not_lt.1 hlast),
      completeIfEmpty_busy _ (by exact hs), ← steppedPixel_eq]
    rfl

end Sys2Proof.Machine
end

