-- ==== Sys2Proof/Laws/Step.lean ====
section
/-! SUPPORT. What a step can do, said once per input: START's four cases, the block's turn, and one equation of `step` per
input. -/

namespace Sys2Proof.Machine

/-! ## START (spec/41_raster_serializer.md R139) -/

theorem start_busy (c : Byte) (s : State) (h : s.convState = .busy) : start c s = .fault .hostProtocolViolation := by
  simp [start, h]

theorem start_unsupported (c : Byte) (s : State) (h : s.convState ≠ .busy) (hf : formatOfTag c = none) :
    start c s = .next (raiseError .unsupportedFormat (s.withLatches c)) := by
  simp [start, h, hf]

theorem start_invalid (c : Byte) (s : State) (f : OutputFormat) (h : s.convState ≠ .busy) (hf : formatOfTag c = some f)
    (hn : s.cfg.lenMax < conversionLength s.src.width s.src.height f) :
    start c s = .next (raiseError .invalidDimensions (s.withLatches c)) := by
  simp [start, h, hf, hn]

theorem start_accepted (c : Byte) (s : State) (f : OutputFormat) (h : s.convState ≠ .busy) (hf : formatOfTag c = some f)
    (hn : conversionLength s.src.width s.src.height f ≤ s.cfg.lenMax) :
    start c s = .next ((s.withLatches c).withAccepted (conversionLength s.src.width s.src.height f)) := by
  simp [start, h, hf, Nat.not_lt.2 hn]

/-- START answers a next state in three ways only. -/
theorem start_next_cases (c : Byte) (s t : State) (h : start c s = .next t) :
    s.convState ≠ .busy ∧
      ((formatOfTag c = none ∧ t = raiseError .unsupportedFormat (s.withLatches c)) ∨
        ∃ f, formatOfTag c = some f ∧
          ((s.cfg.lenMax < conversionLength s.src.width s.src.height f ∧
              t = raiseError .invalidDimensions (s.withLatches c)) ∨
            (conversionLength s.src.width s.src.height f ≤ s.cfg.lenMax ∧
              t = (s.withLatches c).withAccepted (conversionLength s.src.width s.src.height f)))) := by
  by_cases hb : s.convState = .busy
  · simp [start_busy c s hb] at h
  · refine ⟨hb, ?_⟩
    cases hf : formatOfTag c with
    | none => rw [start_unsupported c s hb hf] at h; injection h with h; exact .inl ⟨rfl, h.symm⟩
    | some f =>
      refine .inr ⟨f, rfl, ?_⟩
      by_cases hn : s.cfg.lenMax < conversionLength s.src.width s.src.height f
      · rw [start_invalid c s f hb hf hn] at h; injection h with h; exact .inl ⟨hn, h.symm⟩
      · rw [start_accepted c s f hb hf (by omega)] at h; injection h with h; exact .inr ⟨by omega, h.symm⟩

/-- Every instruction is START with its tag (spec/41_raster_serializer.md R141, R142). -/
theorem exec_eq_start (i : Instr) (s : State) : exec i s = start (encode i) s := by cases i <;> rfl

/-- A CMD write is START with its byte, whatever the byte. -/
theorem writeCmd_eq_start (c : Byte) (s : State) : writeCmd c s = start c s := by
  simp only [writeCmd, decode]
  split_ifs with h0 h1
  · subst h0; rfl
  · subst h1; rfl
  · rfl

/-! ## The block's turn -/

theorem blockTurn_quiescent (s : State) (h : s.convState ≠ .busy) : blockTurn s = .next s := by simp [blockTurn, h]

/-- A pending pixel is chosen under `Any`. -/
theorem chosenIndex_spec (s : State) (hw : Pending.wf s.pend = true) (hn : s.pend ≠ []) :
    ∃ i, chosenIndex s = some i ∧ Pending.has i s.pend = true := by
  have hc : 0 < Pending.count s.pend :=
    Nat.pos_of_ne_zero fun h => hn ((Pending.eq_nil_iff_count _ hw).2 h)
  obtain ⟨i, hi⟩ := Pending.nth_isSome s.pend _ (Nat.mod_lt (Config.drawIndex s.draws) hc)
  exact ⟨i, hi, Pending.nth_has _ _ _ hi⟩

/-- What a turn of the block does while BUSY: it processes one pending pixel `i` completely. Under `RowMajor` it is the pixel
under the cursor, and the cursor moves on; under `Any` the cursor takes free values. -/
theorem blockTurn_busy (s : State) (hw : Pending.wf s.pend = true) (hb : BusyInv s) (hs : s.convState = .busy) :
    ∃ i f m l cx cy d, Pending.has i s.pend = true ∧ formatOfTag s.fmtR = some f ∧
      blockTurn s = .next (steppedPixel f (latchedPixel i s) i m l cx cy d s) ∧
      PixelWrites f (latchedPixel i s) i s m l ∧
      (s.cfg.issueOrder = .rowMajor → i = s.y.toNat * s.wR.toNat + s.x.toNat ∧ d = s.draws ∧
        ((s.x.toNat + 1 < s.wR.toNat ∧ cx = s.x + 1#32 ∧ cy = s.y) ∨
          (s.wR.toNat ≤ s.x.toNat + 1 ∧ cx = 0#32 ∧ cy = s.y + 1#32))) := by
  cases ho : s.cfg.issueOrder with
  | rowMajor =>
    obtain ⟨f, m, l, cx, cy, hf, he, hp, hcur⟩ := pixelStepRowMajor_spec s hb hs ho
    obtain ⟨hx, hy, hpend⟩ := hb.cursor ho
    have hi : Pending.has (s.y.toNat * s.wR.toNat + s.x.toNat) s.pend = true := by
      rw [hpend]; simp [Pending.has, linear_lt hx hy]
    refine ⟨_, f, m, l, cx, cy, s.draws, hi, hf, ?_, hp, fun _ => ⟨rfl, rfl, hcur⟩⟩
    simp only [blockTurn, if_pos hs, pixelStep, ho]
    exact he
  | any =>
    obtain ⟨i, hc, hi⟩ := chosenIndex_spec s hw hb.nonempty
    obtain ⟨f, m, l, hf, he, hp⟩ := pixelStepChoosing_spec i s hb hs hi
    refine ⟨i, f, m, l, Config.freeCursorX s.draws, Config.freeCursorY s.draws, s.draws + 1, hi, hf, ?_, hp,
      fun h => by simp at h⟩
    simp only [blockTurn, if_pos hs, pixelStep, ho, hc]
    exact he

/-! ## What any next state of the pixel step keeps, with no premise on the state -/

theorem memWriteBytes_next (off : Nat) (vs : List Byte) (s t : State) (h : memWriteBytes off vs s = .next t) :
    ∃ m, t = s.withBuffers m s.outOld s.late := by
  induction vs generalizing off s with
  | nil => simp [memWriteBytes] at h; exact ⟨s.out, h ▸ rfl⟩
  | cons v vs ih =>
    simp only [memWriteBytes, memWrite] at h
    split at h
    · obtain ⟨m, hm⟩ := ih _ _ h
      exact ⟨m, hm⟩
    · simp [andThen] at h

theorem processPixel_next (x y : Nat) (s t : State) (h : processPixel x y s = .next t) :
    ∃ p w m l q, t = ((s.withPixel p w).withBuffers m s.outOld l).withPend q := by
  simp only [processPixel] at h
  split at h
  · simp at h
  · simp at h
  · next c f _ _ =>
    generalize hm : memWriteBytes _ _ _ = r at h
    cases r with
    | next u =>
      obtain ⟨m, rfl⟩ := memWriteBytes_next _ _ _ _ hm
      obtain ⟨m', l, he, _⟩ := landLate_spec ((y * s.wR.toNat + x) * bpp f) (bpp f)
        ((s.withPixel (latchChannels s.aR c) (packedWord f (latchChannels s.aR c))).withBuffers m s.outOld s.late)
      simp only [andThen] at h
      injection h with h
      exact ⟨_, _, m', l, _, h ▸ congrArg (State.withPend _) he⟩
    | fault e => simp [andThen] at h
    | refused e => simp [andThen] at h

/-- A pixel step that answers a next state writes PIX, PK, PEND, the cursor, OUT, the outstanding host writes, the draw counter and
STATE, and nothing else. -/
theorem pixelStep_next (s t : State) (h : pixelStep s = .next t) :
    ∃ p w m l q cx cy d c,
      t = ((((((s.withPixel p w).withBuffers m s.outOld l).withPend q).withCursor cx cy).withDraws d).withConvState c) := by
  have complete : ∀ u : State, ∃ c, completeIfEmpty u = u.withConvState c := fun u => by
    by_cases hq : u.pend = []
    · exact ⟨.done, by simp [completeIfEmpty, hq]⟩
    · exact ⟨u.convState, by simp [completeIfEmpty, hq]; rfl⟩
  simp only [pixelStep] at h
  split at h
  · simp only [pixelStepRowMajor] at h
    generalize hp : processPixel _ _ _ = r at h
    cases r with
    | next u =>
      obtain ⟨p, w, m, l, q, rfl⟩ := processPixel_next _ _ _ _ hp
      simp only [andThen] at h
      injection h with h
      obtain ⟨c, hc⟩ := complete (advance (((s.withPixel p w).withBuffers m s.outOld l).withPend q))
      rw [hc] at h
      by_cases ha : s.x.toNat + 1 < s.wR.toNat
      · refine ⟨p, w, m, l, q, s.x + 1#32, s.y, s.draws, c, ?_⟩
        rw [← h, advance_row (((s.withPixel p w).withBuffers m s.outOld l).withPend q) ha]; rfl
      · refine ⟨p, w, m, l, q, 0#32, s.y + 1#32, s.draws, c, ?_⟩
        rw [← h, advance_wrap (((s.withPixel p w).withBuffers m s.outOld l).withPend q) (Nat.not_lt.1 ha)]; rfl
    | fault e => simp [andThen] at h
    | refused e => simp [andThen] at h
  · split at h
    · simp at h
    · next i _ =>
      simp only [pixelStepChoosing] at h
      split at h
      · generalize hp : processPixel _ _ _ = r at h
        cases r with
        | next u =>
          obtain ⟨p, w, m, l, q, rfl⟩ := processPixel_next _ _ _ _ hp
          simp only [andThen] at h
          injection h with h
          obtain ⟨c, hc⟩ := complete (freeCursor (((s.withPixel p w).withBuffers m s.outOld l).withPend q))
          rw [hc] at h
          exact ⟨p, w, m, l, q, _, _, _, c, h.symm⟩
        | fault e => simp [andThen] at h
        | refused e => simp [andThen] at h
      · simp at h

/-- The same, field by field: what no pixel step changes. -/
theorem pixelStep_keeps (s t : State) (h : pixelStep s = .next t) :
    t.cfg = s.cfg ∧ t.errCode = s.errCode ∧ t.len = s.len ∧ t.fmtR = s.fmtR ∧ t.wR = s.wR ∧ t.hR = s.hR ∧ t.aR = s.aR ∧
      t.src = s.src ∧ t.inputs = s.inputs ∧ t.seen = s.seen ∧ t.outOld = s.outOld ∧ t.view = s.view ∧
      t.doneRead = s.doneRead := by
  obtain ⟨p, w, m, l, q, cx, cy, d, c, rfl⟩ := pixelStep_next s t h
  simp

/-! ## One equation of `step` per input -/

theorem step_nil (s : State) (h : s.inputs = []) : step s = blockTurn s := by simp [step, h]

theorem step_block (s : State) (r : List Input) (h : s.inputs = .block :: r) :
    step s = blockTurn (s.withInputs r) := by simp [step, h]

theorem step_reset (s : State) (r : List Input) (h : s.inputs = .reset :: r) :
    step s = .next (applyReset (s.withInputs r)) := by simp [step, h]

theorem step_access (s : State) (a : HostAccess) (r : List Input) (h : s.inputs = .access a :: r) :
    step s = hostAccess a (s.withInputs r) := by simp [step, h]

theorem step_command (s : State) (c : Byte) (r : List Input) (h : s.inputs = .command c :: r) :
    step s = start c (s.withInputs r) := by simp [step, h, writeCmd_eq_start]

end Sys2Proof.Machine
end

