-- ==== Sys2Proof/Laws/HostPort.lean ====
section
/-! SUPPORT. What the host's accesses and a reset can do, said once (spec/41_raster_serializer.md R143, R144,
spec/70_reset_and_hazards.md R175, R183, R186). -/

namespace Sys2Proof.Machine

/-! What READ STATUS leaves in each field (R143). -/

@[simp] theorem readStatus_cfg (s : State) : (readStatus s).cfg = s.cfg := rfl
@[simp] theorem readStatus_convState (s : State) : (readStatus s).convState = s.convState := rfl
@[simp] theorem readStatus_errCode (s : State) : (readStatus s).errCode = s.errCode := rfl
@[simp] theorem readStatus_len (s : State) : (readStatus s).len = s.len := rfl
@[simp] theorem readStatus_fmtR (s : State) : (readStatus s).fmtR = s.fmtR := rfl
@[simp] theorem readStatus_wR (s : State) : (readStatus s).wR = s.wR := rfl
@[simp] theorem readStatus_hR (s : State) : (readStatus s).hR = s.hR := rfl
@[simp] theorem readStatus_aR (s : State) : (readStatus s).aR = s.aR := rfl
@[simp] theorem readStatus_x (s : State) : (readStatus s).x = s.x := rfl
@[simp] theorem readStatus_y (s : State) : (readStatus s).y = s.y := rfl
@[simp] theorem readStatus_pend (s : State) : (readStatus s).pend = s.pend := rfl
@[simp] theorem readStatus_pix (s : State) : (readStatus s).pix = s.pix := rfl
@[simp] theorem readStatus_pk (s : State) : (readStatus s).pk = s.pk := rfl
@[simp] theorem readStatus_src (s : State) : (readStatus s).src = s.src := rfl
@[simp] theorem readStatus_out (s : State) : (readStatus s).out = s.out := rfl
@[simp] theorem readStatus_inputs (s : State) : (readStatus s).inputs = s.inputs := rfl
@[simp] theorem readStatus_outOld (s : State) : (readStatus s).outOld = s.outOld := rfl
@[simp] theorem readStatus_view (s : State) : (readStatus s).view = s.view := rfl
@[simp] theorem readStatus_late (s : State) : (readStatus s).late = s.late := rfl
@[simp] theorem readStatus_draws (s : State) : (readStatus s).draws = s.draws := rfl
@[simp] theorem readStatus_seen (s : State) : (readStatus s).seen = .status (statusWord s) :: s.seen := rfl
@[simp] theorem readStatus_doneRead (s : State) :
    (readStatus s).doneRead = (s.doneRead || decide (s.convState = .done)) := rfl

/-- A host access that answers a next state changes OUT and its two companions, SRC, the inputs, what has been read and the draw
counter, and no register of the block. -/
theorem hostAccess_next (a : HostAccess) (s t : State) (h : hostAccess a s = .next t) :
    ∃ d m o l src i q n,
      t = { s with doneRead := d, out := m, outOld := o, late := l, src := src, inputs := i, seen := q, draws := n } := by
  cases a with
  | readStatus => injection h with h; exact ⟨_, _, _, _, _, _, _, _, h.symm⟩
  | readLen => injection h with h; exact ⟨_, _, _, _, _, _, _, _, h.symm⟩
  | poll => injection h with h; subst h; unfold poll; split_ifs <;> exact ⟨_, _, _, _, _, _, _, _, rfl⟩
  | writeStatus v => injection h with h; exact ⟨_, _, _, _, _, _, _, _, h.symm⟩
  | writeLen v => injection h with h; exact ⟨_, _, _, _, _, _, _, _, h.symm⟩
  | readOut off => injection h with h; exact ⟨_, _, _, _, _, _, _, _, h.symm⟩
  | writeOut off v => injection h with h; subst h; unfold writeOut; split_ifs <;> exact ⟨_, _, _, _, _, _, _, _, rfl⟩
  | supplySrc src =>
    simp only [hostAccess, supplySrc] at h
    split_ifs at h
    injection h with h; exact ⟨_, _, _, _, _, _, _, _, h.symm⟩

/-- What `keepsPixelValues` decides: every pixel that both grids declare is delivered as before (R184). -/
theorem keepsPixelValues_iff (src : Source) (s : State) :
    keepsPixelValues src s = true ↔
      ∀ x y, x < s.wR.toNat → y < s.hR.toNat → x < src.width.toNat → y < src.height.toNat →
        asChannels (s.aR && src.hasAlpha) (src.stored x y) = asChannels (s.aR && src.hasAlpha) (s.view.stored x y) := by
  rw [keepsPixelValues, decide_eq_true_iff]
  constructor
  · intro h x y hx hy hx' hy'
    exact h y (Nat.lt_min.2 ⟨hy, hy'⟩) x (Nat.lt_min.2 ⟨hx, hx'⟩)
  · intro h y hy x hx
    obtain ⟨hy, hy'⟩ := Nat.lt_min.1 hy
    obtain ⟨hx, hx'⟩ := Nat.lt_min.1 hx
    exact h x y hx hy hx' hy'

/-- A source is put in place outside BUSY, and during a conversion whose pixel values it keeps. -/
theorem supplySrc_next (src : Source) (s : State) (h : s.convState = .busy → keepsPixelValues src s = true) :
    supplySrc src s = .next (s.withSrc src) := by
  rw [supplySrc, if_neg]
  rintro ⟨hb, hk⟩
  rw [h hb] at hk
  exact absurd hk (by decide)

/-- A change of a pixel value during a conversion is refused. -/
theorem supplySrc_refused (src : Source) (s : State) (hb : s.convState = .busy) (hk : keepsPixelValues src s = false) :
    supplySrc src s = .refused .sourceChangedWhileBusy := by
  rw [supplySrc, if_pos ⟨hb, hk⟩]

/-- A host access never faults. -/
theorem hostAccess_not_fault (a : HostAccess) (s : State) (e : Fault) : hostAccess a s ≠ .fault e := by
  cases a <;> simp [hostAccess, supplySrc]
  split_ifs <;> simp

/-- Outside a conversion, and at LEN or above, a host write of OUT simply lands (R186). -/
theorem writeOut_plain (b : Bool) (off : Nat) (v : Byte) (s : State)
    (h : ¬ (s.convState = .busy ∧ off < s.len.toNat)) :
    writeOut b off v s = s.withBuffers (Memory.write s.out off v) (Memory.write s.outOld off v) s.late := by
  simp only [writeOut, if_neg h]

/-- A host write of OUT changes the three buffers only. -/
theorem writeOut_buffers (b : Bool) (off : Nat) (v : Byte) (s : State) :
    ∃ m o l, writeOut b off v s = s.withBuffers m o l := by
  unfold writeOut
  split_ifs <;> exact ⟨_, _, _, rfl⟩

/-- An overlay leaves every offset it does not list alone. -/
theorem Memory.read_overlay_none (m l : Memory) (a : Nat) (h : Memory.read l a = none) :
    Memory.read (Memory.overlay m l) a = Memory.read m a := by
  induction l generalizing m with
  | nil => rfl
  | cons p t ih =>
    simp only [Memory.read, lookup] at h
    split_ifs at h with hk
    rw [Memory.overlay, ih _ h, Memory.read_write_other _ _ _ _ hk]

/-- A reset with no host write outstanding leaves OUT alone (R175). -/
theorem applyReset_keeps_out (s : State) (h : s.late = []) : (applyReset s).out = s.out := by
  show Memory.overlay s.out s.late = s.out
  rw [h, Memory.overlay_nil]

/-- The byte at `a` belongs to pixel `a div b`: it lies outside the bytes of every other pixel (spec/20_memory.md R53). -/
theorem outside_pixel_iff {a i b : Nat} (hb : 0 < b) : (a < i * b ∨ i * b + b ≤ a) ↔ a / b ≠ i := by
  constructor
  · rintro h rfl
    have h1 := Nat.div_mul_le_self a b
    have h2 := Nat.lt_div_mul_add (a := a) hb
    omega
  · intro h
    by_contra hc
    push Not at hc
    refine h ?_
    have hsub : a = i * b + (a - i * b) := by omega
    rw [hsub, Nat.mul_comm i b, Nat.mul_add_div hb, Nat.div_eq_of_lt]
    · rfl
    · rw [Nat.mul_comm b i]; omega

end Sys2Proof.Machine
end

