-- ==== Sys2Proof/Laws/Invariant.lean ====
section
/-! SUPPORT. The invariants of Safety.lean do not depend on the inputs still to come, but for their form. -/

namespace Sys2Proof.Machine

theorem BusyInv.withInputs {s : State} (h : BusyInv s) (r : List Input) : BusyInv (s.withInputs r) :=
  ⟨h.format, h.width, h.height, h.fits, h.nonempty, h.inGrid, h.cursor⟩

theorem Inv.withInputs {s : State} (h : Machine.Inv s) (r : List Input) (hr : ∀ i ∈ r, i.wf = true) :
    Machine.Inv (s.withInputs r) :=
  { h with inputsForm := hr, busy := fun hb => (h.busy hb).withInputs r }

theorem CleanInv.withInputs {s : State} (h : CleanInv s) (r : List Input) (hr : ∀ i ∈ r, i.wf = true) :
    CleanInv (s.withInputs r) :=
  ⟨h.inv.withInputs r hr, h.bytes, h.noLate⟩

end Sys2Proof.Machine
end

