-- ==== Sys2Proof/Laws/PerInstr.lean ====
section
/-! SUPPORT. Laws stated per instruction. -/

namespace Sys2Proof.Laws.RoundTrip

/-- What holds of every instruction as syntax: it is well-formed, its command byte decodes to it, the table's word of one byte does
too, and the format the block takes from the byte is the instruction's (spec/30_encoding.md R71, R74). -/
def Statement (i : Instr) : Prop :=
  i.wf = true ∧ decode (encode i) = .instr i ∧ decodeTableWord 8 (encode i).toNat = some i ∧
    Machine.formatOfTag (encode i) = some (Machine.formatOf i)

theorem packRgb565 : Statement .packRgb565 := ⟨rfl, rfl, rfl, rfl⟩

theorem packArgb8888 : Statement .packArgb8888 := ⟨rfl, rfl, rfl, rfl⟩

end Sys2Proof.Laws.RoundTrip
end

