-- ==== Sys2Proof/Laws/Run.lean ====
section
/-! SUPPORT. Runs of the host's interface, one step at a time. -/

namespace Sys2Proof.Machine

/-- One unfolding of a run, for any machine. -/
theorem core_run_succ (M : Host.Core) (k : Nat) (s : M.State) :
    M.run (k + 1) s =
      match M.step s with
      | .next t => M.run k t
      | .fault r => .fault r
      | .refused r => .refused r := rfl

theorem run_zero (s : State) : Host.Core.run Sys2Proof.core 0 s = .next s := rfl

theorem run_succ (k : Nat) (s : State) :
    Host.Core.run Sys2Proof.core (k + 1) s = andThen (step s) (fun t => Host.Core.run Sys2Proof.core k t) := by
  have h := core_run_succ Sys2Proof.core k s
  have hstep : Sys2Proof.core.step s = step s := rfl
  rw [hstep] at h
  cases hs : step s <;> rw [hs] at h <;> exact h

/-- A run goes on from the state its first step answers. -/
theorem run_next (k : Nat) (s t : State) (h : step s = .next t) :
    Host.Core.run Sys2Proof.core (k + 1) s = Host.Core.run Sys2Proof.core k t := by rw [run_succ, h]; rfl

/-- A fault ends a run for good. -/
theorem run_fault (k : Nat) (s : State) (e : Fault) (h : step s = .fault e) :
    Host.Core.run Sys2Proof.core (k + 1) s = .fault e := by rw [run_succ, h]; rfl

/-- A run of `j + k` steps is a run of `j` and then one of `k`. -/
theorem run_add (j k : Nat) (s t : State) (h : Host.Core.run Sys2Proof.core j s = .next t) :
    Host.Core.run Sys2Proof.core (j + k) s = Host.Core.run Sys2Proof.core k t := by
  induction j generalizing s with
  | zero => rw [run_zero] at h; injection h with h; rw [Nat.zero_add, h]
  | succ j ih =>
    rw [show j + 1 + k = (j + k) + 1 by omega]
    rw [run_succ] at h ⊢
    cases hs : step s with
    | next u => rw [hs] at h; exact ih u h
    | fault e => rw [hs] at h; simp [andThen] at h
    | refused e => rw [hs] at h; simp [andThen] at h

/-- A quiescent machine with no input stays as it is. -/
theorem run_quiescent (k : Nat) (s : State) (hi : s.inputs = []) (hs : s.convState ≠ .busy) :
    Host.Core.run Sys2Proof.core k s = .next s := by
  induction k with
  | zero => rfl
  | succ k ih => rw [run_next k s s (by rw [step_nil s hi, blockTurn_quiescent s hs]), ih]

end Sys2Proof.Machine
end

