-- ==== Sys2Proof/Tests/Slice0.lean ====
section
/-! SUPPORT. The model's own tests: what the well-formedness checks refuse, the decoding of words written out from the spec, single
steps with the values of spec/95_test_vectors.md, and a witness for the premises of every statement. -/

namespace Sys2Proof.Tests

open Sys2Proof Sys2Proof.Machine

/-! ## WellFormed refuses what is ill-formed -/

theorem test_wf_refuses_zero_bound : Config.wf { Config.atReset with lenMax := 0 } = false := by decide
theorem test_wf_refuses_bound_above_u64 : Config.wf { Config.atReset with lenMax := 2 ^ 64 } = false := by decide
theorem test_wf_admits_largest_bound : Config.wf { Config.atReset with lenMax := 2 ^ 64 - 1 } = true := by decide
theorem test_wf_refuses_no_lane : Config.wf { Config.atReset with nLanes := 0 } = false := by decide
theorem test_wf_admits_reset : Config.wf Config.atReset = true := by decide
theorem test_wf_admits_every_instruction : Instr.wf .packRgb565 = true ∧ Instr.wf .packArgb8888 = true := by decide
theorem test_wf_refuses_unsorted_memory : Memory.wf [(1, 0#8), (0, 0#8)] = false := by decide
theorem test_wf_refuses_repeated_offset : Memory.wf [(1, 0#8), (1, 1#8)] = false := by decide
theorem test_wf_refuses_listed_fill :
    Source.wf { Source.empty with pixels := [(0, ⟨0#8, 0#8, 0#8, 0#8⟩)] } = false := by decide
theorem test_wf_refuses_unsorted_pixels :
    Source.wf { Source.empty with pixels := [(1, ⟨1#8, 0#8, 0#8, 0#8⟩), (0, ⟨1#8, 0#8, 0#8, 0#8⟩)] } = false := by decide
theorem test_wf_refuses_empty_span : Pending.wf [⟨3, 3⟩] = false := by decide
theorem test_wf_refuses_touching_spans : Pending.wf [⟨0, 2⟩, ⟨2, 4⟩] = false := by decide
theorem test_wf_refuses_bad_source_input :
    Input.wf (.access (.supplySrc { Source.empty with pixels := [(0, ⟨0#8, 0#8, 0#8, 0#8⟩)] })) = false := by decide

/-! ## Decoding: the bits of spec/30_encoding.md R70, R71, R72, and of the table of §8 -/

theorem test_decode_rgb565 : decode 0b00000000#8 = .instr .packRgb565 := by decide
theorem test_decode_argb8888 : decode 0b00000001#8 = .instr .packArgb8888 := by decide
theorem test_decode_first_reserved : decode 0b00000010#8 = .reserved 0b00000010#8 := by decide
theorem test_decode_last_reserved : decode 0b11111111#8 = .reserved 0b11111111#8 := by decide
theorem test_decode_high_bit_is_read : decode 0b10000001#8 = .reserved 0b10000001#8 := by decide
theorem test_table_words :
    decodeTableWord 8 0b00000000 = some .packRgb565 ∧ decodeTableWord 8 0b00000001 = some .packArgb8888 ∧
      decodeTableWord 8 0b00000010 = none := by decide

/-! ## Sources and states -/

/-- spec/95 P1: two pixels in a row, red and blue, no alpha. -/
def rowSource : Source :=
  { width := 2#32, height := 1#32, hasAlpha := false, fill := ⟨0xFF#8, 0#8, 0#8, 0#8⟩
    pixels := [(1, ⟨0#8, 0#8, 0xFF#8, 0#8⟩)] }

/-- spec/95 P3: two pixels in a column, black with alpha 0x80 and white with alpha 0. -/
def columnSource : Source :=
  { width := 1#32, height := 2#32, hasAlpha := true, fill := ⟨0#8, 0#8, 0#8, 0x80#8⟩
    pixels := [(2 ^ 32, ⟨0xFF#8, 0xFF#8, 0xFF#8, 0#8⟩)] }

/-- A source of one colour. -/
def plainSource (w h : U32) : Source :=
  { width := w, height := h, hasAlpha := false, fill := ⟨0x12#8, 0x34#8, 0x56#8, 0#8⟩, pixels := [] }

/-- After reset, with a source in place. -/
def idle (o : IssueOrder) (src : Source) : State :=
  { State.resetWith { Config.atReset with issueOrder := o } with src := src }

/-- The next state of an outcome that has one. -/
def after (r : Result) : State := (nextState r).getD State.reset

/-- BUSY with no pixel processed. -/
def busy (i : Instr) (o : IssueOrder) (src : Source) : State := after (exec i (idle o src))

/-- BUSY with pixel 0 processed, under RowMajor. -/
def half (i : Instr) (src : Source) : State := after (pixelStepRowMajor (busy i .rowMajor src))

/-- DONE, under RowMajor. -/
def finished (i : Instr) (src : Source) : State := after (pixelStepRowMajor (half i src))

/-- ERROR, after the reserved tag 0x02. -/
def failed : State := after (writeCmd 0x02#8 (idle .rowMajor rowSource))

/-! ## Single steps, with the values of spec/95 -/

/-- §3 P1 step 1. -/
theorem test_start_rgb565 :
    (busy .packRgb565 .rowMajor rowSource).fmtR = 0x00#8 ∧ (busy .packRgb565 .rowMajor rowSource).wR = 2#32 ∧
      (busy .packRgb565 .rowMajor rowSource).hR = 1#32 ∧ (busy .packRgb565 .rowMajor rowSource).aR = false ∧
      (busy .packRgb565 .rowMajor rowSource).len = 4#64 ∧ statusWord (busy .packRgb565 .rowMajor rowSource) = 0x01#8 := by
  decide

/-- §3 P1 steps 2 and 3: the bytes F8 00 00 1F, the cursor at (0, 1), STATUS = 0x02. -/
theorem test_pixels_rgb565 :
    Memory.slice (finished .packRgb565 rowSource).out 0 5 = [some 0xF8#8, some 0x00#8, some 0x00#8, some 0x1F#8, none] ∧
      (half .packRgb565 rowSource).x = 1#32 ∧ (finished .packRgb565 rowSource).x = 0#32 ∧
      (finished .packRgb565 rowSource).y = 1#32 ∧ statusWord (finished .packRgb565 rowSource) = 0x02#8 := by decide

/-- §2.5: the last accepted and the first refused width of a one-row ARGB8888 source. -/
theorem test_start_argb8888_bound :
    statusWord (busy .packArgb8888 .rowMajor (plainSource 0x3FFFFFFF#32 1#32)) = 0x01#8 ∧
      (busy .packArgb8888 .rowMajor (plainSource 0x3FFFFFFF#32 1#32)).len = 0xFFFFFFFC#64 ∧
      statusWord (busy .packArgb8888 .rowMajor (plainSource 0x40000000#32 1#32)) = 0x0B#8 ∧
      (busy .packArgb8888 .rowMajor (plainSource 0x40000000#32 1#32)).len = 0#64 := by decide

/-- §3 P3, second conversion: alpha kept, 0 included. -/
theorem test_pixels_argb8888 :
    Memory.slice (finished .packArgb8888 columnSource).out 0 8 =
      [some 0x80#8, some 0#8, some 0#8, some 0#8, some 0#8, some 0xFF#8, some 0xFF#8, some 0xFF#8] := by decide

/-- §2.1 and §2.2: truncation, not rounding, and the byte order A, R, G, B. -/
theorem test_encoders :
    enc565 0xF7#8 0xFB#8 0xF7#8 = 0xF7DE#16 ∧ enc565 0xAB#8 0xCD#8 0xEF#8 = 0xAE7D#16 ∧
      enc8888 0x01#8 0x02#8 0x03#8 0x04#8 = 0x01020304#32 ∧ be16 0x11AA#16 = [0x11#8, 0xAA#8] ∧
      be32 0x80000000#32 = [0x80#8, 0#8, 0#8, 0#8] := by decide

/-- §2.5 and P4: a reserved tag with a zero-area or an oversized source is UnsupportedFormat, STATUS = 0x07. -/
theorem test_reserved_tag_first :
    statusWord (after (writeCmd 0x02#8 (idle .rowMajor (plainSource 0#32 0#32)))) = 0x07#8 ∧
      statusWord (after (writeCmd 0x02#8 (idle .rowMajor (plainSource 0x10000#32 0x10000#32)))) = 0x07#8 ∧
      statusWord (busy .packRgb565 .rowMajor (plainSource 0#32 5#32)) = 0x02#8 := by decide

/-- StatusWordFields, R76 and R77: the status words of §2.5. -/
theorem test_status_words :
    statusWord failed = 0x07#8 ∧ (statusWord failed).extractLsb' 0 2 = 3#2 ∧ (statusWord failed).extractLsb' 2 2 = 1#2 := by
  decide

/-- §2.6: STATUS reads 0x00 after reset. -/
theorem test_read_status_after_reset :
    (after (step (State.reset.withInputs [.access .readStatus]))).seen = [.status 0x00#8] := by decide

/-- The word of a table row, placed, runs as the first instruction after reset: with the empty source it is DONE at once. -/
theorem test_fetch_word_runs :
    statusWord (after (step (State.reset.withFetchWord 8 0b00000001))) = 0x02#8 ∧
      (after (step (State.reset.withFetchWord 8 0b00000001))).fmtR = 0x01#8 := by decide

/-- Format names (spec/30_encoding.md R85; spec/95 V-S10). -/
theorem test_format_names :
    (∃ i, commandOfName "RGB565".toList = .ok i ∧ i = .packRgb565) ∧
      (∃ i, commandOfName "argb8888".toList = .ok i ∧ i = .packArgb8888) ∧
      commandOfName "bgr555".toList = .error .usageError := ⟨⟨_, rfl, rfl⟩, ⟨_, rfl, rfl⟩, rfl⟩

/-! ## Concrete states that meet the invariants -/

theorem idle_clean (o : IssueOrder) (src : Source) (h : src.wf = true) : CleanInv (idle o src) :=
  ⟨⟨rfl, rfl, rfl, rfl, h, rfl, by simp [idle, State.resetWith], rfl, by simp [idle, State.resetWith],
    by simp [idle, State.resetWith], by simp [idle, State.resetWith], by simp [idle, State.resetWith],
    by simp [idle, State.resetWith], by simp [idle, State.resetWith]⟩, by simp [idle, State.resetWith], rfl⟩

/-- A state that is not BUSY, with nothing outstanding: the invariant is a list of closed facts. -/
theorem quiescent_inv (s : State) (h1 : s.cfg.wf = true) (h2 : Memory.wf s.out = true) (h3 : Memory.wf s.outOld = true)
    (h4 : s.src.wf = true) (h4' : s.view.wf = true) (h5 : s.inputs = []) (h6 : Pending.wf s.pend = true)
    (h7 : s.errCode ≠ .none ↔ s.convState = .error) (h8 : s.convState ≠ .busy) (h9 : s.late = [])
    (h10 : s.convState = .done → s.pend = [] ∧ s.len.toNat ≤ s.cfg.lenMax ∧
      ∃ f, formatOfTag s.fmtR = some f ∧ s.len.toNat = conversionLength s.wR s.hR f)
    (h11 : s.convState = .idle ∨ s.convState = .error → s.len = 0#64) : Machine.Inv s :=
  { config := h1, outForm := h2, oldForm := h3, lateForm := by rw [h9]; rfl, srcForm := h4, viewForm := h4'
    inputsForm := by simp [h5], pendForm := h6, errCode := h7, busy := fun h => absurd h h8, done := h10
    quiet := h11, lateQuiet := fun _ => h9, latePending := by simp [h9] }

/-- A BUSY state with one span pending and nothing outstanding: the invariant is a list of closed facts. -/
theorem busy_inv (s : State) (n m : Nat) (f : OutputFormat) (h1 : s.cfg.wf = true) (h2 : Memory.wf s.out = true)
    (h3 : Memory.wf s.outOld = true) (h4 : s.src.wf = true) (h4' : s.view.wf = true) (h5 : s.inputs = []) (h6 : n < m) (h7 : s.errCode = .none)
    (h8 : s.convState = .busy) (h9 : s.late = []) (h10 : formatOfTag s.fmtR = some f)
    (h11 : s.len.toNat = conversionLength s.wR s.hR f) (h12 : s.len.toNat ≤ s.cfg.lenMax) (h13 : s.pend = [⟨n, m⟩])
    (h14 : m = s.wR.toNat * s.hR.toNat) (h15 : 1 ≤ s.wR.toNat) (h16 : 1 ≤ s.hR.toNat)
    (h17 : s.cfg.issueOrder = .rowMajor →
      s.x.toNat < s.wR.toNat ∧ s.y.toNat < s.hR.toNat ∧ s.y.toNat * s.wR.toNat + s.x.toNat = n) : Machine.Inv s :=
  { config := h1, outForm := h2, oldForm := h3, lateForm := by rw [h9]; rfl, srcForm := h4, viewForm := h4'
    inputsForm := by simp [h5], pendForm := by simp [h13, Pending.wf, h6], errCode := by simp [h7, h8]
    busy := fun _ =>
      { format := ⟨f, h10, h11⟩, width := h15, height := h16, fits := h12, nonempty := by simp [h13]
        inGrid := by intro i hi; simp [h13, Pending.has] at hi; omega
        cursor := fun ho => by
          obtain ⟨a, b, c⟩ := h17 ho
          exact ⟨a, b, by rw [h13, c, h14]⟩ }
    done := by simp [h8], quiet := by simp [h8], lateQuiet := fun _ => h9, latePending := by simp [h9] }

theorem busy_rowMajor_clean : CleanInv (busy .packRgb565 .rowMajor rowSource) :=
  ⟨busy_inv _ 0 2 .rgb565 rfl rfl rfl rfl rfl rfl (by decide) rfl rfl rfl rfl (by decide) (by decide) rfl (by decide)
    (by decide) (by decide) (by decide), fun _ f hf i hi hp => by
      exfalso
      have h2 : i < 2 := hi
      have hp' : Pending.has i [⟨0, 2⟩] = false := hp
      simp [Pending.has] at hp'; omega, rfl⟩

theorem busy_any_clean : CleanInv (busy .packArgb8888 .any columnSource) :=
  ⟨busy_inv _ 0 2 .argb8888 rfl rfl rfl rfl rfl rfl (by decide) rfl rfl rfl rfl (by decide) (by decide) rfl (by decide)
    (by decide) (by decide) (by decide), fun _ f hf i hi hp => by
      exfalso
      have h2 : i < 2 := hi
      have hp' : Pending.has i [⟨0, 2⟩] = false := hp
      simp [Pending.has] at hp'; omega, rfl⟩

theorem half_clean : CleanInv (half .packRgb565 rowSource) :=
  ⟨busy_inv _ 1 2 .rgb565 rfl rfl rfl rfl rfl rfl (by decide) rfl rfl rfl rfl (by decide) (by decide) rfl (by decide)
    (by decide) (by decide) (by decide), fun _ f hf i hi hp k hk => by
      have hi2 : i < 2 := hi
      have hp' : Pending.has i [⟨1, 2⟩] = false := hp
      have hf' : some OutputFormat.rgb565 = some f := hf
      injection hf' with hf'
      subst hf'
      have hk2 : k < 2 := hk
      obtain rfl : i = 0 := by simp [Pending.has] at hp'; omega
      interval_cases k <;> rfl, rfl⟩

theorem finished_rgb565_clean : CleanInv (finished .packRgb565 rowSource) :=
  ⟨quiescent_inv _ rfl rfl rfl rfl rfl rfl rfl (by decide) (by decide) rfl (fun _ => ⟨rfl, by decide, .rgb565, rfl, by decide⟩)
    (by decide), fun _ f hf i hi _ k hk => by
      have hi2 : i < 2 := hi
      have hf' : some OutputFormat.rgb565 = some f := hf
      injection hf' with hf'
      subst hf'
      have hk2 : k < 2 := hk
      interval_cases i <;> interval_cases k <;> rfl, rfl⟩

theorem finished_argb8888_clean : CleanInv (finished .packArgb8888 columnSource) :=
  ⟨quiescent_inv _ rfl rfl rfl rfl rfl rfl rfl (by decide) (by decide) rfl
    (fun _ => ⟨rfl, by decide, .argb8888, rfl, by decide⟩) (by decide), fun _ f hf i hi _ k hk => by
      have hi2 : i < 2 := hi
      have hf' : some OutputFormat.argb8888 = some f := hf
      injection hf' with hf'
      subst hf'
      have hk2 : k < 4 := hk
      interval_cases i <;> interval_cases k <;> rfl, rfl⟩

theorem failed_clean : CleanInv failed :=
  ⟨quiescent_inv _ rfl rfl rfl rfl rfl rfl rfl (by decide) (by decide) rfl (by decide) (by decide), fun h => absurd h (by decide), rfl⟩

/-! ## Witnesses: a concrete state and operands for the premises of every statement, and for each of its clauses -/

/-- DecodeOfEveryByte, DecodeEncodeAgree: both sides of the boundary between the defined and the reserved tags. -/
theorem witness_decode :
    (0x01#8).toNat = 1 ∧ decode 0x01#8 = .instr .packArgb8888 ∧ 2 ≤ (0x02#8).toNat ∧ decode 0x02#8 = .reserved 0x02#8 ∧
      2 ≤ (0xFF#8).toNat ∧ decode 0xFF#8 = .reserved 0xFF#8 := by decide

/-- StepRunsDecodedInstruction. -/
theorem witness_step_runs :
    ((idle .rowMajor rowSource).withInputs [.command 0x01#8]).inputs = .command 0x01#8 :: [] ∧
      decode 0x01#8 = .instr .packArgb8888 := by decide

/-- PackRgb565Accepted: the bound met exactly (LEN_MAX = 4), zero area, and the largest width of spec/95 §2.5. -/
theorem witness_rgb565_accepted :
    (Config.wf { Config.atReset with lenMax := 4 } = true ∧ (idle .rowMajor rowSource).convState ≠ .busy ∧
      rowSource.width.toNat * rowSource.height.toNat * 2 ≤ 4) ∧
    (plainSource 0#32 5#32).width.toNat * (plainSource 0#32 5#32).height.toNat * 2 ≤ Config.atReset.lenMax ∧
    (plainSource 0x7FFFFFFF#32 1#32).width.toNat * (plainSource 0x7FFFFFFF#32 1#32).height.toNat * 2 ≤
      Config.atReset.lenMax := by decide

/-- PackArgb8888Accepted: from IDLE, from DONE and from ERROR, and the largest width. -/
theorem witness_argb8888_accepted :
    Config.atReset.wf = true ∧ failed.convState ≠ .busy ∧ (finished .packRgb565 rowSource).convState ≠ .busy ∧
      rowSource.width.toNat * rowSource.height.toNat * 4 ≤ Config.atReset.lenMax ∧
      (plainSource 0x3FFFFFFF#32 1#32).width.toNat * (plainSource 0x3FFFFFFF#32 1#32).height.toNat * 4 ≤
        Config.atReset.lenMax := by decide

/-- StartWritesNoByteOfOut, StartChecksInOrder: a START that is accepted. -/
theorem witness_start_accepts :
    writeCmd 0x00#8 (idle .rowMajor rowSource) = .next (busy .packRgb565 .rowMajor rowSource) ∧
      formatOfTag 0x00#8 = some .rgb565 ∧ rowSource.width ≠ 0#32 ∧ rowSource.height ≠ 0#32 := ⟨rfl, rfl, by decide, by decide⟩

/-- ReservedTagRaisesUnsupportedFormat: the first and the last reserved tag, from DONE and from ERROR. -/
theorem witness_reserved :
    2 ≤ (0x02#8).toNat ∧ 2 ≤ (0xFF#8).toNat ∧ (finished .packRgb565 rowSource).convState ≠ .busy ∧
      failed.convState ≠ .busy := by decide

/-- OversizedSourceRaisesInvalidDimensions, LengthCheckIsExact: one byte above the bound of LEN_MAX = 3, the first refused width of
spec/95 §2.5, and the largest product of all under the largest bound. -/
theorem witness_oversized :
    (3 < rowSource.width.toNat * rowSource.height.toNat * bpp (formatOf .packRgb565)) ∧
    Config.atReset.lenMax <
      (plainSource 0x40000000#32 1#32).width.toNat * (plainSource 0x40000000#32 1#32).height.toNat *
        bpp (formatOf .packArgb8888) ∧
    2 ^ 64 - 1 <
      (plainSource 0xFFFFFFFF#32 0xFFFFFFFF#32).width.toNat * (plainSource 0xFFFFFFFF#32 0xFFFFFFFF#32).height.toNat *
        bpp (formatOf .packRgb565) := by decide

/-- StartChecksInOrder: the error clause, the zero-area clause by width and by height. -/
theorem witness_start_checks :
    (idle .rowMajor (plainSource 0#32 5#32)).convState ≠ .busy ∧
      (plainSource 0#32 5#32).width = 0#32 ∧ (plainSource 5#32 0#32).height = 0#32 ∧
      formatOfTag 0x01#8 = some .argb8888 ∧
      Config.atReset.lenMax <
        (plainSource 0x10000#32 0x10000#32).width.toNat * (plainSource 0x10000#32 0x10000#32).height.toNat * bpp .argb8888 := by
  decide

/-- ErrorEntryIsPrecise, FailedStartFailsAgain: both error kinds. -/
theorem witness_error_entry :
    (writeCmd 0x02#8 (idle .rowMajor rowSource) = .next failed ∧ failed.convState = .error) ∧
    ∃ t, writeCmd 0x00#8 (idle .rowMajor (plainSource 0x80000000#32 1#32)) = .next t ∧ t.convState = .error ∧
      t.errCode = .invalidDimensions := ⟨⟨rfl, rfl⟩, _, rfl, rfl, rfl⟩

/-- StartFromErrorIsStartFromIdle. -/
theorem witness_from_error : failed.convState = .error := by decide

/-- CommandWhileBusyFaults. -/
theorem witness_command_while_busy :
    (busy .packRgb565 .rowMajor rowSource).convState = .busy ∧
      ((busy .packRgb565 .rowMajor rowSource).withInputs [.command 0x01#8]).convState = .busy ∧
      ((busy .packRgb565 .rowMajor rowSource).withInputs [.command 0x01#8]).inputs = .command 0x01#8 :: [] := by decide

/-- Enc565DependsOnKeptBits: spec/95 V-S8. -/
theorem witness_kept_bits :
    (0x10#8).extractLsb' 3 5 = (0x17#8).extractLsb' 3 5 ∧ (0x20#8).extractLsb' 2 6 = (0x23#8).extractLsb' 2 6 ∧
      (0x30#8).extractLsb' 3 5 = (0x37#8).extractLsb' 3 5 := by decide

/-- Enc565RequantizesToItself: the zero-fill expansion of 0xF7DE, and one with other low bits. -/
theorem witness_requantize :
    (0xF0#8).extractLsb' 3 5 = red5 0xF7DE#16 ∧ (0xF8#8).extractLsb' 2 6 = green6 0xF7DE#16 ∧
      (0xF0#8).extractLsb' 3 5 = blue5 0xF7DE#16 ∧ (0xF7#8).extractLsb' 3 5 = red5 0xF7DE#16 ∧
      (0xFB#8).extractLsb' 2 6 = green6 0xF7DE#16 := by decide

/-- RasterOrderIsRowMajor: spec/95 §2.4, the last pixel of a row and of the grid. -/
theorem witness_raster : (2 < 3 ∧ 0 < 2) ∧ (5 < 3 * 2 ∧ rasterOrder 3 2 = [(0, 0), (1, 0), (2, 0), (0, 1), (1, 1), (2, 1)]) := by
  decide

/-- PackLengthIsExact, PackBytesByOffset, StartAgreesWithPack: both tags succeed on the row of spec/95 P1. -/
theorem witness_pack :
    (∃ bytes, pack 4 rowSource 0x00#8 = .ok bytes) ∧ (∃ bytes, pack 8 rowSource 0x01#8 = .ok bytes) ∧
      formatOfTag 0x01#8 = some .argb8888 ∧ 1 < rowSource.width.toNat ∧ 0 < rowSource.height.toNat ∧ 3 < bpp .argb8888 :=
  ⟨⟨_, rfl⟩, ⟨_, rfl⟩, rfl, by decide, by decide, by decide⟩

/-- StartAgreesWithPack: both ways `pack` fails, and the empty success. -/
theorem witness_pack_fails :
    pack 3 rowSource 0x00#8 = .error .invalidDimensions ∧ pack 4 rowSource 0x02#8 = .error .unsupportedFormat ∧
      pack 4 (plainSource 0#32 5#32) 0x00#8 = .ok [] := ⟨rfl, rfl, rfl⟩

/-- ZeroAreaPacksToNothing: zero width, zero height, the last defined and the first reserved tag. -/
theorem witness_zero_area :
    (plainSource 0#32 0xFFFFFFFF#32).width = 0#32 ∧ (plainSource 0xFFFFFFFF#32 0#32).height = 0#32 ∧ (0x01#8).toNat < 2 ∧
      2 ≤ (0x02#8).toNat := by decide

/-- PixelStepRowMajorEffect, AdvanceMovesTheCursor, LastPixelCompletes, RowMajorTakesTheLeastPending, BlockTurnNeverFails,
StepKeepsInv: BUSY under RowMajor with another column to come (it stays BUSY). -/
theorem witness_next_column :
    Machine.Inv (busy .packRgb565 .rowMajor rowSource) ∧ (busy .packRgb565 .rowMajor rowSource).convState = .busy ∧
      (busy .packRgb565 .rowMajor rowSource).cfg.issueOrder = .rowMajor ∧
      (busy .packRgb565 .rowMajor rowSource).x.toNat + 1 < (busy .packRgb565 .rowMajor rowSource).wR.toNat ∧
      step (busy .packRgb565 .rowMajor rowSource) = .next (half .packRgb565 rowSource) :=
  ⟨busy_rowMajor_clean.inv, rfl, rfl, by decide, rfl⟩

/-- The same statements: the last column of the last row (it enters DONE). -/
theorem witness_last_pixel :
    Machine.Inv (half .packRgb565 rowSource) ∧ (half .packRgb565 rowSource).convState = .busy ∧
      (half .packRgb565 rowSource).cfg.issueOrder = .rowMajor ∧
      (half .packRgb565 rowSource).wR.toNat ≤ (half .packRgb565 rowSource).x.toNat + 1 ∧
      (half .packRgb565 rowSource).y.toNat + 1 = (half .packRgb565 rowSource).hR.toNat ∧
      step (half .packRgb565 rowSource) = .next (finished .packRgb565 rowSource) :=
  ⟨half_clean.inv, rfl, rfl, by decide, by decide, rfl⟩

/-- PixelStepChoosingEffect, EveryScheduleEndsInPack: BUSY under Any, the last pixel first. -/
theorem witness_any :
    CleanInv (busy .packArgb8888 .any columnSource) ∧ (busy .packArgb8888 .any columnSource).convState = .busy ∧
      (busy .packArgb8888 .any columnSource).cfg.issueOrder = .any ∧
      Pending.has 1 (busy .packArgb8888 .any columnSource).pend = true ∧
      Pending.has 0 (busy .packArgb8888 .any columnSource).pend = true ∧ [1, 0].Nodup ∧
      (∃ t, runChoices [1, 0] (busy .packArgb8888 .any columnSource) = .next t ∧ t.convState = .done) ∧
      ∃ t, runChoices [1] (busy .packArgb8888 .any columnSource) = .next t ∧ t.convState = .busy :=
  ⟨busy_any_clean, rfl, rfl, rfl, rfl, by decide, ⟨_, rfl, rfl⟩, _, rfl, rfl⟩

/-- BlockTurnNeverFails: the three quiescent states. -/
theorem witness_quiescent :
    Machine.Inv (idle .rowMajor rowSource) ∧ (idle .rowMajor rowSource).convState ≠ .busy ∧
      Machine.Inv (finished .packRgb565 rowSource) ∧ (finished .packRgb565 rowSource).convState ≠ .busy ∧
      Machine.Inv failed ∧ failed.convState ≠ .busy :=
  ⟨(idle_clean _ _ rfl).inv, by decide, finished_rgb565_clean.inv, by decide, failed_clean.inv, by decide⟩

/-- StatusWordFields, LenWriteIsIgnored: the ignored writes. -/
theorem witness_ignored_writes :
    (failed.withInputs [.access (.writeStatus 0xFF#8)]).inputs = .access (.writeStatus 0xFF#8) :: [] ∧
      (failed.withInputs [.access (.writeLen 1#64)]).inputs = .access (.writeLen 1#64) :: [] := by decide

/-- ReadStatusReturnsStatus, ReadLenReturnsLen: reads while BUSY. -/
theorem witness_reads :
    Machine.Inv ((busy .packRgb565 .rowMajor rowSource).withInputs [.access .readLen]) ∧
      ((busy .packRgb565 .rowMajor rowSource).withInputs [.access .readLen]).inputs = .access .readLen :: [] ∧
      ((busy .packRgb565 .rowMajor rowSource).withInputs [.access .readLen]).convState = .busy ∧
      ((busy .packRgb565 .rowMajor rowSource).withInputs [.access .readStatus]).inputs = .access .readStatus :: [] :=
  ⟨busy_rowMajor_clean.inv.withInputs _ (by decide), rfl, rfl, rfl⟩

/-- HostReadOfOut: before DONE has been read, the last byte below LEN and the first at LEN; after it has been read, byte 0. -/
theorem witness_host_read :
    ((finished .packRgb565 rowSource).withInputs [.access (.readOut 3#64)]).inputs = .access (.readOut 3#64) :: [] ∧
      (finished .packRgb565 rowSource).doneRead = false ∧
      (3#64).toNat < (finished .packRgb565 rowSource).len.toNat ∧
      (finished .packRgb565 rowSource).len.toNat ≤ (4#64).toNat ∧
      (readStatus (finished .packRgb565 rowSource)).doneRead = true := by decide

/-- FinalByteIsThePackByte: a processed byte and the last pending one while BUSY, and the last byte in DONE. -/
theorem witness_final_byte :
    CleanInv (half .packRgb565 rowSource) ∧ (half .packRgb565 rowSource).convState = .busy ∧
      formatOfTag (half .packRgb565 rowSource).fmtR = some .rgb565 ∧ 3 < (half .packRgb565 rowSource).len.toNat ∧
      finalByte 0 (half .packRgb565 rowSource) = 0xF8#8 ∧ finalByte 3 (half .packRgb565 rowSource) = 0x1F#8 ∧
      CleanInv (finished .packRgb565 rowSource) ∧ (finished .packRgb565 rowSource).convState = .done :=
  ⟨half_clean, rfl, rfl, by decide, rfl, rfl, finished_rgb565_clean, rfl⟩

/-- HostWriteOfOut: the last byte below LEN and the first at LEN while BUSY, and a write outside a conversion. -/
theorem witness_host_write :
    Machine.Inv ((half .packRgb565 rowSource).withInputs [.access (.writeOut 3#64 0xAA#8)]) ∧
      ((half .packRgb565 rowSource).convState = .busy ∧ (3#64).toNat < (half .packRgb565 rowSource).len.toNat) ∧
      ¬ ((half .packRgb565 rowSource).convState = .busy ∧ (4#64).toNat < (half .packRgb565 rowSource).len.toNat) ∧
      ¬ ((finished .packRgb565 rowSource).convState = .busy ∧ (0#64).toNat < (finished .packRgb565 rowSource).len.toNat) :=
  ⟨half_clean.inv.withInputs _ (by decide), by decide, by decide, by decide⟩

/-- SourceChangeDuringConversion, the changes that put the source in place while BUSY: the same pixel values listed in another form, a
smaller grid, a larger one with new colours outside the latched grid, and another kind with other hidden alphas. -/
theorem witness_source_change_kept :
    (half .packRgb565 rowSource).convState = .busy ∧
      keepsPixelValues { rowSource with fill := ⟨0#8, 0#8, 0xFF#8, 0#8⟩, pixels := [(0, ⟨0xFF#8, 0#8, 0#8, 0#8⟩)] }
        (half .packRgb565 rowSource) = true ∧
      keepsPixelValues { rowSource with width := 1#32, pixels := [] } (half .packRgb565 rowSource) = true ∧
      keepsPixelValues { rowSource with width := 9#32, pixels := rowSource.pixels ++ [(2, ⟨1#8, 2#8, 3#8, 4#8⟩)] }
        (half .packRgb565 rowSource) = true ∧
      keepsPixelValues { rowSource with hasAlpha := true, fill := ⟨0xFF#8, 0#8, 0#8, 0x80#8⟩ }
        (half .packRgb565 rowSource) = true ∧
      keepsPixelValues { columnSource with hasAlpha := false, pixels := [(2 ^ 32, ⟨0xFF#8, 0xFF#8, 0xFF#8, 9#8⟩)] }
        (half .packArgb8888 columnSource) = true := by decide

/-- SourceChangeDuringConversion, the refusal: the last pixel of the grid with another colour, and one with another alpha. -/
theorem witness_source_change_refused :
    ((half .packRgb565 rowSource).convState = .busy ∧ 1 < (half .packRgb565 rowSource).wR.toNat ∧
      0 < (half .packRgb565 rowSource).hR.toNat ∧ 1 < (plainSource 2#32 1#32).width.toNat ∧
      asChannels false ((plainSource 2#32 1#32).stored 1 0) ≠ asChannels false ((half .packRgb565 rowSource).view.stored 1 0)) ∧
    keepsPixelValues { columnSource with pixels := [(2 ^ 32, ⟨0xFF#8, 0xFF#8, 0xFF#8, 1#8⟩)] }
      (half .packArgb8888 columnSource) = false ∧
    (finished .packRgb565 rowSource).convState ≠ .busy := by decide

/-- SourceChangeDuringConversion: a pixel step that answers a next state. -/
theorem witness_source_change_step :
    pixelStep (half .packRgb565 rowSource) = .next (finished .packRgb565 rowSource) := rfl

/-- SourcePixelFunction: a listed and an unlisted pixel, at the two ends of the coordinates' range. -/
theorem witness_source_pixel :
    columnSource.wf = true ∧ (pixelKey 0 1, ⟨0xFF#8, 0xFF#8, 0xFF#8, 0#8⟩) ∈ columnSource.pixels ∧
      columnSource.pixel 0 1 = .rgba 0xFF#8 0xFF#8 0xFF#8 0#8 ∧
      columnSource.pixel (2 ^ 32 - 1) (2 ^ 32 - 1) = .rgba 0#8 0#8 0#8 0x80#8 ∧
      rowSource.pixel 1 0 = .rgb 0#8 0#8 0xFF#8 := by decide

/-- ResetInputEffect, ResetAbandonsConversion: a reset after one of two pixels. -/
theorem witness_reset :
    ((half .packRgb565 rowSource).withInputs [.reset]).inputs = .reset :: [] ∧
      ((half .packRgb565 rowSource).withInputs [.reset]).late = [] ∧
      Memory.read ((half .packRgb565 rowSource).withInputs [.reset]).late 0 = none ∧
      statusWord (after (step ((half .packRgb565 rowSource).withInputs [.reset]))) = 0x00#8 ∧
      Memory.slice (after (step ((half .packRgb565 rowSource).withInputs [.reset]))).out 0 4 =
        [some 0xF8#8, some 0x00#8, none, none] := by decide

/-- ResetMeetsTheInvariants: the smallest and the largest bound. -/
theorem witness_config :
    Config.wf { Config.atReset with lenMax := 1 } = true ∧ Config.wf { Config.atReset with lenMax := 2 ^ 64 - 1 } = true := by
  decide

/-- StepKeepsInv, HazardKeepingStepKeepsBytesFinal: a pixel step, and a host write of the first byte at LEN. -/
theorem witness_invariant_step :
    CleanInv (half .packRgb565 rowSource) ∧ keepsHazards (half .packRgb565 rowSource) ∧
      step (half .packRgb565 rowSource) = .next (finished .packRgb565 rowSource) ∧
      CleanInv ((half .packRgb565 rowSource).withInputs [.access (.writeOut 4#64 0xAA#8)]) ∧
      keepsHazards ((half .packRgb565 rowSource).withInputs [.access (.writeOut 4#64 0xAA#8)]) ∧
      ∃ t, step ((half .packRgb565 rowSource).withInputs [.access (.writeOut 4#64 0xAA#8)]) = .next t :=
  ⟨half_clean, trivial, rfl, half_clean.withInputs _ (by decide), fun _ => by decide, _, rfl⟩

/-- DoneOutputEqualsPack, MixedWidthViewsOfOut: DONE in each format, with two pixels next to each other. -/
theorem witness_done :
    CleanInv (finished .packRgb565 rowSource) ∧ (finished .packRgb565 rowSource).convState = .done ∧
      (finished .packRgb565 rowSource).fmtR = 0x00#8 ∧
      0 + 1 < (finished .packRgb565 rowSource).wR.toNat * (finished .packRgb565 rowSource).hR.toNat ∧
      CleanInv (finished .packArgb8888 columnSource) ∧ (finished .packArgb8888 columnSource).convState = .done ∧
      (finished .packArgb8888 columnSource).fmtR = 0x01#8 ∧
      0 + 1 < (finished .packArgb8888 columnSource).wR.toNat * (finished .packArgb8888 columnSource).hR.toNat :=
  ⟨finished_rgb565_clean, rfl, rfl, by decide, finished_argb8888_clean, rfl, rfl, by decide⟩

/-- OnlyCommandOrResetLeavesQuiescence: a host read in DONE, and a turn of the block. -/
theorem witness_quiescent_step :
    (finished .packRgb565 rowSource).convState ≠ .busy ∧
      (∀ c rest, ((finished .packRgb565 rowSource).withInputs [.access .readLen]).inputs ≠ .command c :: rest) ∧
      (∀ rest, ((finished .packRgb565 rowSource).withInputs [.access .readLen]).inputs ≠ .reset :: rest) ∧
      ∃ t, step ((finished .packRgb565 rowSource).withInputs [.access .readLen]) = .next t :=
  ⟨by decide, by simp, by simp, _, rfl⟩

/-- LatchesChangeOnlyByStartOrReset, BytesAboveLenStay: a pixel step, and the byte at LEN. -/
theorem witness_latches :
    Machine.Inv (half .packRgb565 rowSource) ∧ (half .packRgb565 rowSource).inputs = [] ∧
      step (half .packRgb565 rowSource) = .next (finished .packRgb565 rowSource) ∧
      (half .packRgb565 rowSource).len.toNat ≤ 4 := ⟨half_clean.inv, rfl, rfl, by decide⟩

/-- OnlyHostViolationsStopTheMachine: both stops. -/
theorem witness_stops :
    Machine.Inv ((half .packRgb565 rowSource).withInputs [.command 0x00#8]) ∧
      step ((half .packRgb565 rowSource).withInputs [.command 0x00#8]) = .fault .hostProtocolViolation ∧
      Machine.Inv ((half .packRgb565 rowSource).withInputs [.access (.supplySrc (plainSource 2#32 1#32))]) ∧
      step ((half .packRgb565 rowSource).withInputs [.access (.supplySrc (plainSource 2#32 1#32))]) =
        .refused .sourceChangedWhileBusy :=
  ⟨half_clean.inv.withInputs _ (by decide), rfl, half_clean.inv.withInputs _ (by decide), rfl⟩

/-- ConversionEqualsPack, ConvertPollsUntilDone: a source with two pixels, and one with none. -/
theorem witness_conversion :
    Machine.Inv ((idle .any rowSource).withInputs [.command (encode .packRgb565)]) ∧
      (idle .any rowSource).convState ≠ .busy ∧
      rowSource.width.toNat * rowSource.height.toNat * bpp (formatOf .packRgb565) ≤ (idle .any rowSource).cfg.lenMax ∧
      0 < rowSource.width.toNat * rowSource.height.toNat ∧
      Machine.Inv ((idle .rowMajor (plainSource 0#32 5#32)).withInputs (convert .packArgb8888)) ∧
      (plainSource 0#32 5#32).width.toNat * (plainSource 0#32 5#32).height.toNat * bpp (formatOf .packArgb8888) ≤
        (idle .rowMajor (plainSource 0#32 5#32)).cfg.lenMax :=
  ⟨(idle_clean _ _ rfl).inv.withInputs _ (by decide), by decide, by decide, by decide,
    (idle_clean _ _ rfl).inv.withInputs _ (by decide), by decide⟩

/-- ConvertPollsUntilDone: CONVERT of a source with two pixels. -/
theorem witness_convert :
    Machine.Inv ((idle .any columnSource).withInputs (convert .packArgb8888)) ∧
      ((idle .any columnSource).withInputs (convert .packArgb8888)).inputs = convert .packArgb8888 ∧
      (idle .any columnSource).convState ≠ .busy ∧
      columnSource.width.toNat * columnSource.height.toNat * bpp (formatOf .packArgb8888) ≤
        (idle .any columnSource).cfg.lenMax ∧
      0 < columnSource.width.toNat * columnSource.height.toNat :=
  ⟨(idle_clean _ _ rfl).inv.withInputs _ (by decide), rfl, by decide, by decide, by decide⟩

/-- EarlierConversionsDoNotMatter: one machine fresh from reset under Any, one that has converted in the other format. -/
theorem witness_earlier :
    Machine.Inv ((idle .any columnSource).withInputs [.command (encode .packRgb565)]) ∧
      Machine.Inv ((finished .packArgb8888 columnSource).withInputs [.command (encode .packRgb565)]) ∧
      (idle .any columnSource).convState ≠ .busy ∧ (finished .packArgb8888 columnSource).convState ≠ .busy ∧
      (idle .any columnSource).src = (finished .packArgb8888 columnSource).src ∧
      (idle .any columnSource).cfg.lenMax = (finished .packArgb8888 columnSource).cfg.lenMax :=
  ⟨(idle_clean _ _ rfl).inv.withInputs _ (by decide), finished_argb8888_clean.inv.withInputs _ (by decide), by decide,
    by decide, by decide, by decide⟩

/-- PixelStepRowMajorEffect, AdvanceMovesTheCursor: the last column of a row that is not the last. -/
theorem witness_row_wrap :
    Machine.Inv (busy .packArgb8888 .rowMajor columnSource) ∧
      (busy .packArgb8888 .rowMajor columnSource).convState = .busy ∧
      (busy .packArgb8888 .rowMajor columnSource).cfg.issueOrder = .rowMajor ∧
      (busy .packArgb8888 .rowMajor columnSource).wR.toNat ≤ (busy .packArgb8888 .rowMajor columnSource).x.toNat + 1 ∧
      (busy .packArgb8888 .rowMajor columnSource).y.toNat + 1 < (busy .packArgb8888 .rowMajor columnSource).hR.toNat ∧
      step (busy .packArgb8888 .rowMajor columnSource) = .next (half .packArgb8888 columnSource) :=
  ⟨busy_inv _ 0 2 .argb8888 rfl rfl rfl rfl rfl rfl (by decide) rfl rfl rfl rfl (by decide) (by decide) rfl (by decide)
    (by decide) (by decide) (by decide), rfl, rfl, by decide, by decide, rfl⟩

/-- A host write of byte 3 that is to land after the block's (log 9). -/
def hostWriteWaits : State := { half .packRgb565 rowSource with late := [(3, 0xAA#8)] }

/-- PixelStepRowMajorEffect, PixelStepChoosingEffect, ResetInputEffect: a host write is outstanding for one byte of the pixel and
for no other. -/
theorem witness_outstanding_write :
    Machine.Inv hostWriteWaits ∧ hostWriteWaits.convState = .busy ∧ hostWriteWaits.cfg.issueOrder = .rowMajor ∧
      Pending.has 1 hostWriteWaits.pend = true ∧ Memory.read hostWriteWaits.late 3 = some 0xAA#8 ∧
      Memory.read hostWriteWaits.late 2 = none ∧
      Memory.slice (after (step hostWriteWaits)).out 0 4 = [some 0xF8#8, some 0x00#8, some 0x00#8, some 0xAA#8] :=
  ⟨{ half_clean.inv with
      lateForm := rfl
      busy := fun _ =>
        { format := ⟨.rgb565, rfl, by decide⟩, width := by decide, height := by decide, fits := by decide
          nonempty := by decide, inGrid := (half_clean.inv.busy rfl).inGrid, cursor := by decide }
      lateQuiet := fun h => absurd rfl h
      latePending := by
        intro off v h
        by_cases h3 : off = 3
        · subst h3; rfl
        · have h' : lookup [(3, 0xAA#8)] off = some v := h
          simp [lookup, h3] at h' },
    rfl, rfl, rfl, rfl, rfl, by decide⟩

end Sys2Proof.Tests
end

section
/-! The state obligations (spec/10_state.md): what a step can do, by its next input, and that it keeps the invariants. -/

namespace Sys2Proof.Machine

/-! ## What a step can do -/

/-- A step that answers a next state consumes at most one input, and is the move of whoever that input names. -/
theorem step_next_cases {s t : State} (h : step s = .next t) :
    ∃ r, r ⊆ s.inputs ∧
      (blockTurn (s.withInputs r) = .next t ∨
        (∃ a, s.inputs = .access a :: r ∧ hostAccess a (s.withInputs r) = .next t) ∨
        (s.inputs = .reset :: r ∧ t = applyReset (s.withInputs r)) ∨
        ∃ c, s.inputs = .command c :: r ∧ start c (s.withInputs r) = .next t) := by
  cases hin : s.inputs with
  | nil =>
    have hs : s.withInputs [] = s := by rw [← hin]; rfl
    exact ⟨[], by simp, .inl (by rw [hs, ← step_nil s hin, h])⟩
  | cons m r =>
    refine ⟨r, by simp, ?_⟩
    cases m with
    | block => exact .inl (by rw [← step_block s r hin, h])
    | access a => exact .inr (.inl ⟨a, rfl, by rw [← step_access s a r hin, h]⟩)
    | reset =>
      rw [step_reset s r hin] at h
      injection h with h
      exact .inr (.inr (.inl ⟨rfl, h.symm⟩))
    | command c => exact .inr (.inr (.inr ⟨c, rfl, by rw [← step_command s c r hin, h]⟩))

/-! ## Pixels and bytes -/

/-- A byte is pending where a conversion runs and its pixel is in PEND (spec/20_memory.md R53). -/
theorem bytePending_iff (off : Nat) (s : State) :
    bytePending off s = true ↔
      ∃ f, formatOfTag s.fmtR = some f ∧ s.convState = .busy ∧ Pending.has (off / bpp f) s.pend = true := by
  cases hf : formatOfTag s.fmtR <;> simp [bytePending, pixelOfOffset, hf]

theorem Memory.eq_nil_of_read_ne_some (m : Memory) (h : ∀ a v, Memory.read m a ≠ some v) : m = [] :=
  Memory.eq_nil_of_read_none m fun a => Option.eq_none_iff_forall_ne_some.2 (h a)

namespace PixelWrites

variable {f : OutputFormat} {c : Channels} {i : Nat} {s : State} {m l : Memory}

/-- A host write that still waits after pixel `i` waited before, for a byte of another pixel. -/
theorem late_other (h : PixelWrites f c i s m l) {a : Nat} {v : Byte} (ha : Memory.read l a = some v) :
    Memory.read s.late a = some v ∧ a / bpp f ≠ i := by
  have hne : a / bpp f ≠ i := by
    rintro rfl
    have hown := h.lateOwn (a % bpp f) (Nat.mod_lt _ (bpp_pos f))
    rw [Nat.div_add_mod', ha] at hown
    cases hown
  exact ⟨by rw [← h.lateRest a ((outside_pixel_iff (bpp_pos f)).2 hne), ha], hne⟩

/-- Where no host write waits, none waits after the pixel. -/
theorem late_nil (h : PixelWrites f c i s m l) (hs : s.late = []) : l = [] :=
  Memory.eq_nil_of_read_ne_some l fun a v ha => by
    have hv := (h.late_other ha).1
    rw [hs, Memory.read_nil] at hv
    cases hv

end PixelWrites

/-- STATE after an accepted START or a pixel step is DONE or BUSY. -/
@[simp] theorem done_or_busy_ne_idle (p : Prop) [Decidable p] : (if p then ConvState.done else .busy) ≠ .idle := by
  split_ifs <;> decide

@[simp] theorem done_or_busy_ne_error (p : Prop) [Decidable p] : (if p then ConvState.done else .busy) ≠ .error := by
  split_ifs <;> decide

/-! ## The invariant: what each move keeps -/

/-- What a running conversion keeps does not depend on OUT, on SRC or on what the model notes for the host. -/
theorem BusyInv.withHostFields {s : State} (h : BusyInv s) (m o l : Memory) (src : Source) (q : List Observation) (d : Bool)
    (n : Nat) :
    BusyInv { s with out := m, outOld := o, late := l, src := src, seen := q, doneRead := d, draws := n } :=
  ⟨h.format, h.width, h.height, h.fits, h.nonempty, h.inGrid, h.cursor⟩

/-- What the model notes for the host is no part of the invariant. -/
theorem Inv.withNotes {s : State} (h : Machine.Inv s) (d : Bool) (q : List Observation) (n : Nat) :
    Machine.Inv { s with doneRead := d, seen := q, draws := n } :=
  { h with
    busy := fun hb => (h.busy hb).withHostFields _ _ _ _ _ _ _ }

theorem Inv.withSrc {s : State} (h : Machine.Inv s) {src : Source} (hsrc : src.wf = true) :
    Machine.Inv (s.withSrc src) :=
  { h with
    srcForm := hsrc
    busy := fun hb => (h.busy hb).withHostFields _ _ _ _ _ _ _ }

/-- The buffers of OUT may change as long as they stay in canonical form and host writes wait for pending bytes only. -/
theorem Inv.withBuffers {s : State} (h : Machine.Inv s) {m o l : Memory} (hm : Memory.wf m = true)
    (ho : Memory.wf o = true) (hl : Memory.wf l = true) (hquiet : s.convState ≠ .busy → l = [])
    (hpend : ∀ off v, Memory.read l off = some v → bytePending off s = true) : Machine.Inv (s.withBuffers m o l) :=
  { h with
    outForm := hm, oldForm := ho, lateForm := hl, lateQuiet := hquiet, latePending := hpend
    busy := fun hb => (h.busy hb).withHostFields _ _ _ _ _ _ _ }

theorem Inv.writeOut {s : State} (h : Machine.Inv s) (after : Bool) (off : Nat) (v : Byte) :
    Machine.Inv (writeOut after off v s) := by
  have hout := Memory.write_keeps_wf s.out off v h.outForm
  have hold := Memory.write_keeps_wf s.outOld off v h.oldForm
  unfold Machine.writeOut
  split_ifs with hrun hp hafter hafter
  · refine h.withBuffers h.outForm h.oldForm (Memory.write_keeps_wf _ _ _ h.lateForm) (fun hq => absurd hrun.1 hq)
      fun a w ha => ?_
    rw [Memory.read_write] at ha
    split_ifs at ha with hoff
    · exact hoff ▸ hp
    · exact h.latePending a w ha
  · refine h.withBuffers hout hold (Memory.erase_keeps_wf _ _ h.lateForm) (fun hq => absurd hrun.1 hq) fun a w ha => ?_
    rw [Memory.read_erase] at ha
    split_ifs at ha
    exact h.latePending a w ha
  · exact h.withBuffers hout h.oldForm h.lateForm h.lateQuiet h.latePending
  · exact h.withBuffers h.outForm hold h.lateForm h.lateQuiet h.latePending
  · exact h.withBuffers hout hold h.lateForm h.lateQuiet h.latePending

theorem Inv.hostAccess {s t : State} (h : Machine.Inv s) {a : HostAccess} (ha : (Input.access a).wf = true)
    (ht : hostAccess a s = .next t) : Machine.Inv t := by
  cases a with
  | readStatus => injection ht with ht; exact ht ▸ h.withNotes _ _ _
  | readLen => injection ht with ht; exact ht ▸ h.withNotes _ _ _
  | poll =>
    injection ht with ht
    subst ht
    unfold poll
    split_ifs
    · refine (h.withNotes _ _ _).withInputs (s := readStatus s) _ ?_
      simpa [Input.wf] using h.inputsForm
    · exact h.withNotes _ _ _
  | writeStatus v => injection ht with ht; exact ht ▸ h
  | writeLen v => injection ht with ht; exact ht ▸ h
  | readOut off => injection ht with ht; exact ht ▸ h.withNotes _ _ _
  | writeOut off v => injection ht with ht; exact ht ▸ (h.writeOut _ _ _).withNotes _ _ _
  | supplySrc src =>
    simp only [Machine.hostAccess, supplySrc] at ht
    split_ifs at ht
    injection ht with ht
    exact ht ▸ h.withSrc ha

theorem Inv.applyReset {s : State} (h : Machine.Inv s) : Machine.Inv (applyReset s) where
  config := h.config
  outForm := Memory.overlay_keeps_wf _ _ h.outForm
  oldForm := rfl
  lateForm := rfl
  srcForm := h.srcForm
  viewForm := rfl
  inputsForm := h.inputsForm
  pendForm := rfl
  errCode := by simp [Machine.applyReset, State.resetWith]
  busy := fun hb => by cases hb
  done := fun hd => by cases hd
  quiet := fun _ => rfl
  lateQuiet := fun _ => rfl
  latePending := fun _ _ hv => by cases hv

/-- The error entry of a START (spec/60_exceptions.md R160). -/
theorem Inv.raiseError {s : State} (h : Machine.Inv s) (hs : s.convState ≠ .busy) (c : Byte) {e : ErrCode}
    (he : e ≠ .none) : Machine.Inv (raiseError e (s.withLatches c)) where
  config := h.config
  outForm := h.outForm
  oldForm := h.oldForm
  lateForm := h.lateForm
  srcForm := h.srcForm
  viewForm := h.viewForm
  inputsForm := h.inputsForm
  pendForm := h.pendForm
  errCode := by simp [Machine.raiseError, he]
  busy := fun hb => by cases hb
  done := fun hd => by cases hd
  quiet := fun _ => rfl
  lateQuiet := fun _ => h.lateQuiet hs
  latePending := fun off v hv => by simp [Machine.raiseError, h.lateQuiet hs] at hv

/-- A length that START accepts fits the length register (spec/41_raster_serializer.md R140). -/
theorem accepted_len_toNat {c : Config} (hc : c.wf = true) {n : Nat} (hn : n ≤ c.lenMax) :
    (BitVec.ofNat 64 n).toNat = n := by
  simp only [Config.wf, Bool.and_eq_true, decide_eq_true_eq] at hc
  obtain ⟨⟨_, hmax⟩, _⟩ := hc
  rw [BitVec.toNat_ofNat, Nat.mod_eq_of_lt (by omega)]

/-- A conversion has length 0 exactly where the source has no pixel. -/
theorem conversionLength_eq_zero_iff (w h : U32) (f : OutputFormat) :
    conversionLength w h f = 0 ↔ w.toNat * h.toNat = 0 := by
  have hb := (bpp_pos f).ne'
  rw [conversionLength, Nat.mul_eq_zero, or_iff_left hb]

/-- What an accepted START of a nonempty source leaves meets the BUSY part of the invariant. -/
theorem busyInv_withAccepted {s : State} (hc : s.cfg.wf = true) {c : Byte} {f : OutputFormat}
    (hf : formatOfTag c = some f) (hn : conversionLength s.src.width s.src.height f ≤ s.cfg.lenMax)
    (h0 : conversionLength s.src.width s.src.height f ≠ 0) :
    BusyInv ((s.withLatches c).withAccepted (conversionLength s.src.width s.src.height f)) := by
  have harea : s.src.width.toNat * s.src.height.toNat ≠ 0 := (conversionLength_eq_zero_iff _ _ f).not.1 h0
  have hlen := accepted_len_toNat hc hn
  have hfull : Pending.full (s.src.width.toNat * s.src.height.toNat) =
      [⟨0, s.src.width.toNat * s.src.height.toNat⟩] := if_neg harea
  obtain ⟨hw, hh⟩ := Nat.mul_ne_zero_iff.1 harea
  refine ⟨⟨f, hf, hlen⟩, Nat.pos_of_ne_zero hw, Nat.pos_of_ne_zero hh, hlen.le.trans hn, ?_, fun i hi => ?_, fun _ => ?_⟩
  · simp [hfull]
  · simpa [Pending.has_full] using hi
  · simpa [hfull] using ⟨Nat.pos_of_ne_zero hw, Nat.pos_of_ne_zero hh⟩

/-- An accepted START (spec/41_raster_serializer.md R139). -/
theorem Inv.withAccepted {s : State} (h : Machine.Inv s) {c : Byte} {f : OutputFormat} (hf : formatOfTag c = some f)
    (hn : conversionLength s.src.width s.src.height f ≤ s.cfg.lenMax) :
    Machine.Inv ((s.withLatches c).withAccepted (conversionLength s.src.width s.src.height f)) where
  config := h.config
  outForm := h.outForm
  oldForm := h.outForm
  lateForm := rfl
  srcForm := h.srcForm
  viewForm := h.srcForm
  inputsForm := h.inputsForm
  pendForm := Pending.wf_full _
  errCode := by simp
  busy := fun hb => busyInv_withAccepted h.config hf hn (by simpa using hb)
  done := fun hd => by
    have h0 : conversionLength s.src.width s.src.height f = 0 := by simpa using hd
    have hlen := accepted_len_toNat h.config hn
    exact ⟨by simp [Pending.full, (conversionLength_eq_zero_iff _ _ f).1 h0], hlen.le.trans hn, f, hf, hlen⟩
  quiet := fun hq => by simp at hq
  lateQuiet := fun _ => rfl
  latePending := fun _ _ hv => by cases hv

theorem Inv.start {s t : State} (h : Machine.Inv s) {c : Byte} (ht : start c s = .next t) : Machine.Inv t := by
  obtain ⟨hs, ⟨_, rfl⟩ | ⟨f, hf, ⟨_, rfl⟩ | ⟨hn, rfl⟩⟩⟩ := start_next_cases c s t ht
  · exact h.raiseError hs c (by decide)
  · exact h.raiseError hs c (by decide)
  · exact h.withAccepted hf hn

/-- Under `RowMajor` PEND is the rest of the scan: without the pixel under the cursor it is the rest from the next one on. -/
theorem Pending.remove_first (i n : Nat) (h : i < n) :
    Pending.remove i [⟨i, n⟩] = if i + 1 < n then [⟨i + 1, n⟩] else [] := by
  simp [Pending.remove, Span.cut, h]

/-- Under `RowMajor`, the pixel a step takes and the cursor it leaves (spec/41_raster_serializer.md R133, R134). -/
def TakesUnderCursor (i : Nat) (cx cy : U32) (s : State) : Prop :=
  s.cfg.issueOrder = .rowMajor → i = s.y.toNat * s.wR.toNat + s.x.toNat ∧
    ((s.x.toNat + 1 < s.wR.toNat ∧ cx = s.x + 1#32 ∧ cy = s.y) ∨
      (s.wR.toNat ≤ s.x.toNat + 1 ∧ cx = 0#32 ∧ cy = s.y + 1#32))

/-- ADVANCE moves the cursor to the pixel whose linear index is the next one (spec/41_raster_serializer.md R134). -/
theorem cursor_advances {x y cx cy w h : U32} (hx : x.toNat < w.toNat) (hy : y.toNat < h.toNat)
    (hnext : y.toNat * w.toNat + x.toNat + 1 < w.toNat * h.toNat)
    (hcur : (x.toNat + 1 < w.toNat ∧ cx = x + 1#32 ∧ cy = y) ∨ (w.toNat ≤ x.toNat + 1 ∧ cx = 0#32 ∧ cy = y + 1#32)) :
    cx.toNat < w.toNat ∧ cy.toNat < h.toNat ∧ cy.toNat * w.toNat + cx.toNat = y.toNat * w.toNat + x.toNat + 1 := by
  have hwb := w.isLt
  have hhb := h.isLt
  rcases hcur with ⟨hlt, rfl, rfl⟩ | ⟨hge, rfl, rfl⟩
  · have hcx : (x + 1#32).toNat = x.toNat + 1 := by rw [BitVec.toNat_add]; simp; omega
    rw [hcx]
    exact ⟨hlt, hy, by omega⟩
  · have hcy : (y + 1#32).toNat = y.toNat + 1 := by rw [BitVec.toNat_add]; simp; omega
    have hrow : (y.toNat + 1) * w.toNat = y.toNat * w.toNat + x.toNat + 1 := by rw [Nat.add_mul]; omega
    have hrows : y.toNat + 1 < h.toNat := by
      rw [← hrow, Nat.mul_comm w.toNat] at hnext
      exact lt_of_mul_lt_mul_right hnext (Nat.zero_le _)
    rw [hcy, hrow]
    exact ⟨by simp; omega, hrows, by simp⟩

section PixelStep

variable {s : State} {f : OutputFormat} {i : Nat} {m l : Memory} {cx cy : U32} {d : Nat}

/-- The BUSY part of the invariant, while pixels remain. -/
theorem BusyInv.steppedPixel (h : BusyInv s) {c : Channels} (hrest : Pending.remove i s.pend ≠ [])
    (hcur : TakesUnderCursor i cx cy s) :
    BusyInv (steppedPixel f c i m l cx cy d s) where
  format := h.format
  width := h.width
  height := h.height
  fits := h.fits
  nonempty := hrest
  inGrid := fun j hj => by
    rw [steppedPixel_pend, Pending.has_remove, Bool.and_eq_true] at hj
    exact h.inGrid j hj.1
  cursor := fun ho => by
    obtain ⟨rfl, hmove⟩ := hcur ho
    obtain ⟨hx, hy, hpend⟩ := h.cursor ho
    have hremove := Pending.remove_first _ _ (linear_lt hx hy)
    rw [← hpend] at hremove
    have hnext : s.y.toNat * s.wR.toNat + s.x.toNat + 1 < s.wR.toNat * s.hR.toNat := by
      by_contra hlast
      exact hrest (by rw [hremove, if_neg hlast])
    obtain ⟨hcx, hcy, hidx⟩ := cursor_advances hx hy hnext hmove
    refine ⟨hcx, hcy, ?_⟩
    simp only [steppedPixel_pend, steppedPixel_x, steppedPixel_y, steppedPixel_wR, steppedPixel_hR]
    rw [hremove, if_pos hnext, hidx]

/-- After the step of pixel `i`, a host write waits only for a byte whose pixel is still pending. -/
theorem bytePending_steppedPixel {c : Channels} (h : Machine.Inv s) (hf : formatOfTag s.fmtR = some f)
    (hw : PixelWrites f c i s m l) {off : Nat} {v : Byte} (hv : Memory.read l off = some v) :
    bytePending off (steppedPixel f c i m l cx cy d s) = true := by
  obtain ⟨hlate, hne⟩ := hw.late_other hv
  obtain ⟨g, hg, _, hpend⟩ := (bytePending_iff off s).1 (h.latePending off v hlate)
  obtain rfl : f = g := by simpa [hf] using hg
  have hrest : Pending.has (off / bpp f) (Pending.remove i s.pend) = true := by
    rw [Pending.has_remove, hpend]; simpa using hne
  have hnonempty : Pending.remove i s.pend ≠ [] := fun h0 => by simp [h0, Pending.has] at hrest
  exact (bytePending_iff _ _).2 ⟨f, hf, by simp [hnonempty], hrest⟩

/-- A pixel step (spec/41_raster_serializer.md R133, R136). -/
theorem Inv.steppedPixel {c : Channels} (h : Machine.Inv s) (hs : s.convState = .busy) (hf : formatOfTag s.fmtR = some f)
    (hw : PixelWrites f c i s m l) (hcur : TakesUnderCursor i cx cy s) :
    Machine.Inv (steppedPixel f c i m l cx cy d s) where
  config := h.config
  outForm := hw.outForm h.outForm
  oldForm := h.oldForm
  lateForm := hw.lateForm h.lateForm
  srcForm := h.srcForm
  viewForm := h.viewForm
  inputsForm := h.inputsForm
  pendForm := Pending.wf_remove i s.pend h.pendForm
  errCode := by
    have herr : s.errCode = .none := by simpa [hs] using h.errCode
    simp [herr]
  busy := fun hb => (h.busy hs).steppedPixel (by simpa using hb) hcur
  done := fun hd => ⟨by simpa using hd, (h.busy hs).fits, (h.busy hs).format⟩
  quiet := fun hq => by simp at hq
  lateQuiet := fun hq => Memory.eq_nil_of_read_ne_some l fun a v ha => by
    obtain ⟨_, _, hb, _⟩ := (bytePending_iff _ _).1 (bytePending_steppedPixel h hf hw ha)
    exact hq hb
  latePending := fun _ _ => bytePending_steppedPixel h hf hw

end PixelStep

/-- What a turn of the block does while BUSY, under the invariant: `blockTurn_busy`, its cursor clause by name. -/
theorem Inv.blockTurn_busy {s : State} (h : Machine.Inv s) (hs : s.convState = .busy) :
    ∃ i f m l cx cy d, Pending.has i s.pend = true ∧ formatOfTag s.fmtR = some f ∧
      Machine.blockTurn s = .next (Machine.steppedPixel f (latchedPixel i s) i m l cx cy d s) ∧
      PixelWrites f (latchedPixel i s) i s m l ∧ TakesUnderCursor i cx cy s := by
  obtain ⟨i, f, m, l, cx, cy, d, hi, hf, he, hw, hcur⟩ := Machine.blockTurn_busy s h.pendForm (h.busy hs) hs
  exact ⟨i, f, m, l, cx, cy, d, hi, hf, he, hw, fun ho => have ⟨hidx, _, hmove⟩ := hcur ho; ⟨hidx, hmove⟩⟩

theorem Inv.blockTurn {s t : State} (h : Machine.Inv s) (ht : blockTurn s = .next t) : Machine.Inv t := by
  by_cases hs : s.convState = .busy
  · obtain ⟨i, f, m, l, cx, cy, d, _, hf, he, hw, hcur⟩ := h.blockTurn_busy hs
    rw [he] at ht
    injection ht with ht
    exact ht ▸ h.steppedPixel hs hf hw hcur
  · rw [blockTurn_quiescent s hs] at ht
    injection ht with ht
    exact ht ▸ h

/-- Settles O48: each move a step can be keeps the invariant. -/
theorem stepKeepsInv : Obligations.StepKeepsInv := by
  intro s t h ht
  obtain ⟨r, hr, hmove⟩ := step_next_cases ht
  have hi : Machine.Inv (s.withInputs r) := h.withInputs r fun i hi => h.inputsForm i (hr hi)
  rcases hmove with hb | ⟨a, hin, ha⟩ | ⟨_, rfl⟩ | ⟨c, _, hc⟩
  · exact hi.blockTurn hb
  · exact hi.hostAccess (h.inputsForm _ (by simp [hin])) ha
  · exact hi.applyReset
  · exact hi.start hc

end Sys2Proof.Machine
end

section
/-! The bytes of OUT (spec/10_state.md R37, R38): while the host keeps the hazards every step keeps the written bytes final, so
DONE finds `pack` in OUT. -/

namespace Sys2Proof.Machine

/-- The bytes of the pixels no longer pending are final, and no host write waits. -/
structure BytesClean (s : State) : Prop where
  final  : s.convState = .busy ∨ s.convState = .done → BytesFinal s
  noLate : s.late = []

theorem cleanInv_iff (s : State) : CleanInv s ↔ Machine.Inv s ∧ BytesClean s :=
  ⟨fun h => ⟨h.inv, h.bytes, h.noLate⟩, fun ⟨hi, hb⟩ => ⟨hi, hb.final, hb.noLate⟩⟩

/-- The bytes do not depend on SRC, which a conversion no longer reads (log 25), on the inputs or on what the model notes. -/
theorem BytesClean.withHostFields {s : State} (h : BytesClean s) (src : Source) (i : List Input) (q : List Observation)
    (d : Bool) (n : Nat) : BytesClean { s with src := src, inputs := i, seen := q, doneRead := d, draws := n } :=
  ⟨h.final, h.noLate⟩

/-- In IDLE and ERROR there is no byte to account for. -/
theorem bytesClean_quiet {s : State} (hs : s.convState = .idle ∨ s.convState = .error) (hl : s.late = []) :
    BytesClean s :=
  ⟨by rcases hs with hs | hs <;> simp [hs], hl⟩

/-- While a conversion runs and after it, the bytes of the pixels of the grid are the bytes below LEN. -/
theorem Inv.pixel_byte_lt_len {s : State} (h : Machine.Inv s) (hs : s.convState = .busy ∨ s.convState = .done)
    {f : OutputFormat} (hf : formatOfTag s.fmtR = some f) {i k : Nat} (hi : i < s.wR.toNat * s.hR.toNat)
    (hk : k < bpp f) : i * bpp f + k < s.len.toNat := by
  obtain ⟨g, hg, hlen⟩ : ∃ g, formatOfTag s.fmtR = some g ∧ s.len.toNat = conversionLength s.wR s.hR g :=
    hs.elim (fun hb => (h.busy hb).format) fun hd => (h.done hd).2.2
  obtain rfl : f = g := by simpa [hf] using hg
  have hle : (i + 1) * bpp f ≤ s.wR.toNat * s.hR.toNat * bpp f := Nat.mul_le_mul_right _ hi
  rw [Nat.add_mul] at hle
  rw [hlen, conversionLength]
  omega

/-- A write of OUT at LEN or above touches no byte of a conversion. -/
theorem BytesFinal.write_above {s : State} (h : BytesFinal s) (hi : Machine.Inv s)
    (hs : s.convState = .busy ∨ s.convState = .done) {off : Nat} (hoff : s.len.toNat ≤ off) (v : Byte) (o l : Memory) :
    BytesFinal (s.withBuffers (Memory.write s.out off v) o l) := fun f hf i hgrid hpend k hk => by
  have hlt := hi.pixel_byte_lt_len hs hf hgrid hk
  rw [State.withBuffers_out, Memory.read_write_other _ _ _ _ (by omega)]
  exact h f hf i hgrid hpend k hk

/-- A host write that keeps the hazard on OUT (spec/70_reset_and_hazards.md R186). -/
theorem BytesClean.writeOut {s : State} (h : BytesClean s) (hi : Machine.Inv s) (after : Bool) {off : Nat} (v : Byte)
    (hoff : s.convState = .busy ∨ s.convState = .done → s.len.toNat ≤ off) : BytesClean (writeOut after off v s) := by
  have hplain : ¬ (s.convState = .busy ∧ off < s.len.toNat) := fun ⟨hb, hlt⟩ => by have := hoff (.inl hb); omega
  rw [writeOut_plain after off v s hplain]
  exact ⟨fun hs => (h.final hs).write_above hi hs (hoff hs) v _ _, h.noLate⟩

theorem BytesClean.hostAccess {s t : State} (h : BytesClean s) (hi : Machine.Inv s) {a : HostAccess}
    (hkeep : ∀ off v, a = .writeOut off v → s.convState = .busy ∨ s.convState = .done → s.len.toNat ≤ off.toNat)
    (ht : hostAccess a s = .next t) : BytesClean t := by
  cases a with
  | readStatus => injection ht with ht; exact ht ▸ h.withHostFields _ _ _ _ _
  | readLen => injection ht with ht; exact ht ▸ h.withHostFields _ _ _ _ _
  | poll => injection ht with ht; subst ht; unfold poll; split_ifs <;> exact h.withHostFields _ _ _ _ _
  | writeStatus v => injection ht with ht; exact ht ▸ h
  | writeLen v => injection ht with ht; exact ht ▸ h
  | readOut off => injection ht with ht; exact ht ▸ h.withHostFields _ _ _ _ _
  | writeOut off v => injection ht with ht; exact ht ▸ (h.writeOut hi _ v (hkeep off v rfl)).withHostFields _ _ _ _ _
  | supplySrc src =>
    simp only [Machine.hostAccess, supplySrc] at ht
    split_ifs at ht
    injection ht with ht
    exact ht ▸ h.withHostFields _ _ _ _ _

/-- An accepted START makes every pixel of the grid pending, so it has no byte to account for. -/
theorem bytesClean_withAccepted (n : Nat) (s : State) : BytesClean (s.withAccepted n) :=
  ⟨fun _ f _ i hgrid hpend => by
    rw [State.withAccepted_pend, Pending.has_full] at hpend
    exact absurd hgrid (of_decide_eq_false hpend), rfl⟩

theorem BytesClean.start {s t : State} (h : BytesClean s) {c : Byte} (ht : start c s = .next t) : BytesClean t := by
  have herror : ∀ e, BytesClean (raiseError e (s.withLatches c)) := fun e => bytesClean_quiet (.inr rfl) h.noLate
  obtain ⟨_, ⟨_, rfl⟩ | ⟨f, _, ⟨_, rfl⟩ | ⟨_, rfl⟩⟩⟩ := start_next_cases c s t ht
  · exact herror _
  · exact herror _
  · exact bytesClean_withAccepted _ _

theorem bytesClean_applyReset (s : State) : BytesClean (applyReset s) :=
  bytesClean_quiet (.inl rfl) rfl

/-- The step of pixel `i` writes its bytes of `pack` and leaves every other pixel's bytes alone. -/
theorem BytesClean.steppedPixel {s : State} (h : BytesClean s) (hs : s.convState = .busy) {f : OutputFormat} {i : Nat}
    {m l : Memory} (hf : formatOfTag s.fmtR = some f) (hw : PixelWrites f (latchedPixel i s) i s m l)
    (cx cy : U32) (d : Nat) : BytesClean (steppedPixel f (latchedPixel i s) i m l cx cy d s) := by
  refine ⟨fun _ g hg j hgrid hpend k hk => ?_, hw.late_nil h.noLate⟩
  obtain rfl : f = g := by simpa [hf] using hg
  change Memory.read m (j * bpp f + k) = (packBytes f (latchedSource s))[j * bpp f + k]?
  by_cases hji : j = i
  · subst hji
    rw [hw.own k hk, h.noLate, Memory.read_nil, Option.none_or]
    exact (packBytes_latched f s j k hgrid hk).symm
  · have hother : Pending.has j s.pend = false := by
      rw [steppedPixel_pend, Pending.has_remove] at hpend
      simpa [hji] using hpend
    have hout := hw.other (j * bpp f + k) ((outside_pixel_iff (bpp_pos f)).2 (by rwa [(linear_split j hk).2]))
    rw [hout]
    exact h.final (.inl hs) f hf j hgrid hother k hk

theorem BytesClean.blockTurn {s t : State} (h : BytesClean s) (hi : Machine.Inv s) (ht : blockTurn s = .next t) :
    BytesClean t := by
  by_cases hs : s.convState = .busy
  · obtain ⟨i, f, m, l, cx, cy, d, _, hf, he, hw, _⟩ := hi.blockTurn_busy hs
    rw [he] at ht
    injection ht with ht
    exact ht ▸ h.steppedPixel hs hf hw cx cy d
  · rw [blockTurn_quiescent s hs] at ht
    injection ht with ht
    exact ht ▸ h

/-- What `keepsHazards` says of a host write of OUT. -/
theorem keepsHazards_writeOut {s : State} (h : keepsHazards s) {off : U64} {v : Byte} {r : List Input}
    (hin : s.inputs = .access (.writeOut off v) :: r) :
    s.convState = .busy ∨ s.convState = .done → s.len.toNat ≤ off.toNat := by
  simpa only [keepsHazards, hin] using h

/-- Settles O49: each move that keeps the hazard on OUT keeps the written bytes final; the invariant is O48's. -/
theorem hazardKeepingStepKeepsBytesFinal : Obligations.HazardKeepingStepKeepsBytesFinal := by
  intro s t h hkeep ht
  obtain ⟨hinv, hbytes⟩ := (cleanInv_iff s).1 h
  refine (cleanInv_iff t).2 ⟨stepKeepsInv s t hinv ht, ?_⟩
  obtain ⟨r, hr, hmove⟩ := step_next_cases ht
  have hi : Machine.Inv (s.withInputs r) := hinv.withInputs r fun i hi => hinv.inputsForm i (hr hi)
  have hb : BytesClean (s.withInputs r) := hbytes.withHostFields _ _ _ _ _
  rcases hmove with hturn | ⟨a, hin, ha⟩ | ⟨_, rfl⟩ | ⟨c, _, hc⟩
  · exact hb.blockTurn hi hturn
  · refine hb.hostAccess hi (fun off v hw => ?_) ha
    exact keepsHazards_writeOut hkeep (hw ▸ hin)
  · exact bytesClean_applyReset _
  · exact hb.start hc

/-- A memory that reads a list's bytes from offset 0 on shows the list. -/
theorem Memory.slice_eq_map_some (m : Memory) (bytes : List Byte)
    (h : ∀ a, a < bytes.length → Memory.read m a = bytes[a]?) :
    Memory.slice m 0 bytes.length = bytes.map some := by
  refine List.ext_getElem? fun a => ?_
  by_cases ha : a < bytes.length
  · rw [Memory.slice_getElem m 0 _ a ha, Nat.zero_add, h a ha]
    simp [ha]
  · rw [List.getElem?_eq_none (by simpa using ha), List.getElem?_eq_none (by simpa using ha)]

/-- In DONE no pixel is pending, so every byte below LEN is the byte of `pack`. -/
theorem CleanInv.read_done {s : State} (h : CleanInv s) (hd : s.convState = .done) {f : OutputFormat}
    (hf : formatOfTag s.fmtR = some f) {a : Nat} (ha : a < conversionLength s.wR s.hR f) :
    Memory.read s.out a = (packBytes f (latchedSource s))[a]? := by
  obtain ⟨hpend, _, _⟩ := h.inv.done hd
  have hgrid : a / bpp f < s.wR.toNat * s.hR.toNat := Nat.div_lt_of_lt_mul (by rwa [Nat.mul_comm])
  have hbyte := h.bytes (.inr hd) f hf (a / bpp f) hgrid (by simp [hpend, Pending.has]) (a % bpp f)
    (Nat.mod_lt _ (bpp_pos f))
  rwa [Nat.div_add_mod'] at hbyte

/-- Settles O50: LEN is within LEN_MAX, so `pack` succeeds, and OUT shows its bytes one by one. -/
theorem doneOutputEqualsPack : Obligations.DoneOutputEqualsPack := by
  intro s h hd
  obtain ⟨_, hmax, f, hf, hlen⟩ := h.inv.done hd
  have hbytes : (packBytes f (latchedSource s)).length = s.len.toNat := by
    rw [hlen, packBytes_length, latchedSource]
  refine ⟨packBytes f (latchedSource s), ?_, hbytes.symm, ?_⟩
  · have hfits : ¬ s.cfg.lenMax < conversionLength s.wR s.hR f := by omega
    simp only [pack, hf]
    exact if_neg hfits
  · rw [← hbytes]
    refine Memory.slice_eq_map_some _ _ fun a ha => ?_
    exact h.read_done hd hf (by rwa [hbytes, hlen] at ha)

end Sys2Proof.Machine
end

section
/-! What no step but a START or a reset changes (spec/10_state.md R23 to R28), and that a command ends in the observation its source
and LEN_MAX alone decide (spec/41_raster_serializer.md R123, R149). -/

namespace Sys2Proof.Machine

/-! ## The registers of one conversion -/

/-- `t` is a state of the conversion of `s`: the parameters, the latches, LEN, ERR and the source START found are the same. -/
structure SameConversion (s t : State) : Prop where
  cfg     : t.cfg = s.cfg
  fmtR    : t.fmtR = s.fmtR
  wR      : t.wR = s.wR
  hR      : t.hR = s.hR
  aR      : t.aR = s.aR
  len     : t.len = s.len
  errCode : t.errCode = s.errCode
  view    : t.view = s.view

theorem SameConversion.refl (s : State) : SameConversion s s := ⟨rfl, rfl, rfl, rfl, rfl, rfl, rfl, rfl⟩

theorem SameConversion.trans {s t u : State} (h : SameConversion s t) (k : SameConversion t u) : SameConversion s u :=
  ⟨k.cfg.trans h.cfg, k.fmtR.trans h.fmtR, k.wR.trans h.wR, k.hR.trans h.hR, k.aR.trans h.aR, k.len.trans h.len,
    k.errCode.trans h.errCode, k.view.trans h.view⟩

theorem SameConversion.latchedSource {s t : State} (h : SameConversion s t) : latchedSource t = latchedSource s := by
  rw [Machine.latchedSource, Machine.latchedSource, h.view, h.wR, h.hR, h.aR]

theorem blockTurn_sameConversion {s t : State} (h : blockTurn s = .next t) : SameConversion s t := by
  by_cases hs : s.convState = .busy
  · rw [blockTurn, if_pos hs] at h
    obtain ⟨hcfg, herr, hlen, hfmt, hw, hh, ha, _, _, _, _, hview, _⟩ := pixelStep_keeps s t h
    exact ⟨hcfg, hfmt, hw, hh, ha, hlen, herr, hview⟩
  · rw [blockTurn_quiescent s hs] at h
    injection h with h
    exact h ▸ .refl s

theorem hostAccess_sameConversion {a : HostAccess} {s t : State} (h : hostAccess a s = .next t) : SameConversion s t := by
  obtain ⟨_, _, _, _, _, _, _, _, rfl⟩ := hostAccess_next a s t h
  exact ⟨rfl, rfl, rfl, rfl, rfl, rfl, rfl, rfl⟩

theorem start_cfg {c : Byte} {s t : State} (h : start c s = .next t) : t.cfg = s.cfg := by
  obtain ⟨_, ⟨_, rfl⟩ | ⟨_, _, ⟨_, rfl⟩ | ⟨_, rfl⟩⟩⟩ := start_next_cases c s t h <;> rfl

/-- Settles O53: the block's turns and the host's accesses keep the conversion, and START and reset keep the parameters. -/
theorem latchesChangeOnlyByStartOrReset : Obligations.LatchesChangeOnlyByStartOrReset := by
  intro s t h
  have hkeep : ∀ r, SameConversion (s.withInputs r) t → t.cfg = s.cfg ∧
      t.fmtR = s.fmtR ∧ t.wR = s.wR ∧ t.hR = s.hR ∧ t.aR = s.aR ∧ t.len = s.len ∧ t.errCode = s.errCode :=
    fun _ k => ⟨k.cfg, k.fmtR, k.wR, k.hR, k.aR, k.len, k.errCode⟩
  obtain ⟨r, _, hb | ⟨a, _, ha⟩ | ⟨hin, rfl⟩ | ⟨c, hin, hc⟩⟩ := step_next_cases h
  · exact (hkeep r (blockTurn_sameConversion hb)).imp_right fun k _ _ => k
  · exact (hkeep r (hostAccess_sameConversion ha)).imp_right fun k _ _ => k
  · exact ⟨rfl, fun _ hreset => absurd hin (hreset r)⟩
  · have hcfg := start_cfg hc
    exact ⟨hcfg, fun hcommand _ => absurd hin (hcommand c r)⟩

/-! ## The end of a command -/

/-- STATE during a conversion: DONE exactly where no pixel is pending (spec/41_raster_serializer.md R136). -/
def Converting (s : State) : Prop := s.convState = if Pending.count s.pend = 0 then .done else .busy

/-- A turn of the block while BUSY takes one pixel, and is never stopped. -/
theorem CleanInv.blockTurn_busy {s : State} (h : CleanInv s) (hs : s.convState = .busy) :
    ∃ t, blockTurn s = .next t ∧ CleanInv t ∧ SameConversion s t ∧ t.inputs = s.inputs ∧ Converting t ∧
      Pending.count t.pend + 1 = Pending.count s.pend := by
  obtain ⟨hinv, hbytes⟩ := (cleanInv_iff s).1 h
  obtain ⟨i, f, m, l, cx, cy, d, hi, hf, he, hw, hcur⟩ := hinv.blockTurn_busy hs
  have hclean := (cleanInv_iff _).2 ⟨hinv.steppedPixel hs hf hw hcur, hbytes.steppedPixel hs hf hw cx cy d⟩
  have hwf := Pending.wf_remove i s.pend hinv.pendForm
  exact ⟨_, he, hclean, blockTurn_sameConversion he, rfl, if_congr (Pending.eq_nil_iff_count _ hwf) rfl rfl,
    Pending.count_remove i s.pend hinv.pendForm hi⟩

/-- A conversion with `n` pixels pending and nothing else to come is DONE after `n` turns of the block. -/
theorem CleanInv.run_pending {n : Nat} {s : State} (h : CleanInv s) (hin : s.inputs = []) (hs : Converting s)
    (hn : Pending.count s.pend = n) :
    ∃ t, Host.Core.run Sys2Proof.core n s = .next t ∧ CleanInv t ∧ SameConversion s t ∧ t.convState = .done := by
  induction n generalizing s with
  | zero => exact ⟨s, run_zero s, h, .refl s, by rw [hs, if_pos hn]⟩
  | succ n ih =>
    have hbusy : s.convState = .busy := by rw [hs, if_neg (by omega)]
    obtain ⟨u, hu, hclean, hsame, hin', hconv, hcount⟩ := h.blockTurn_busy hbusy
    obtain ⟨t, ht, hclean', hsame', hdone⟩ := ih hclean (hin'.trans hin) hconv (by omega)
    exact ⟨t, by rw [run_next n s u (by rw [step_nil s hin, hu]), ht], hclean', hsame.trans hsame', hdone⟩

/-- The observation that `pack` (spec/41_raster_serializer.md R120) makes of a source and a tag: DONE with its bytes, or ERROR with
its error and no byte. -/
def packObservation (lenMax : Nat) (src : Source) (tag : Byte) : Byte × U64 × List (Option Byte) :=
  match pack lenMax src tag with
  | .ok bytes => (0#4 ++ errBits .none ++ stateBits .done, BitVec.ofNat 64 bytes.length, bytes.map some)
  | .error e  => (0#4 ++ errBits e ++ stateBits .error, 0#64, [])

/-- What a DONE state shows is `pack` of the latched source. -/
theorem CleanInv.observation_done {s : State} (h : CleanInv s) (hd : s.convState = .done) :
    observation s = packObservation s.cfg.lenMax (latchedSource s) s.fmtR := by
  obtain ⟨bytes, hpack, hlen, hslice⟩ := doneOutputEqualsPack s h hd
  have herr : s.errCode = .none := by simpa [hd] using h.inv.errCode
  simp only [observation, packObservation, hpack, statusWord, hd, herr, hslice, ← hlen, BitVec.ofNat_toNat,
    BitVec.setWidth_eq]

/-- After the START of an accepted command, the conversion of the source that START found is to come. -/
theorem Inv.cleanInv_withAccepted {s : State} (h : Machine.Inv s) {c : Byte} {f : OutputFormat}
    (hf : formatOfTag c = some f) (hn : conversionLength s.src.width s.src.height f ≤ s.cfg.lenMax) :
    CleanInv ((s.withLatches c).withAccepted (conversionLength s.src.width s.src.height f)) :=
  (cleanInv_iff _).2 ⟨h.withAccepted hf hn, bytesClean_withAccepted _ _⟩

theorem converting_withAccepted (s : State) (c : Byte) (f : OutputFormat) :
    Converting ((s.withLatches c).withAccepted (conversionLength s.src.width s.src.height f)) := by
  simp only [Converting, State.withAccepted_convState, State.withAccepted_pend, Pending.count_full,
    conversionLength_eq_zero_iff, State.withLatches_wR, State.withLatches_hR]

/-- One command ends, one step and one turn per pixel of SRC later, in what `pack` of SRC says: nothing else of the state it began in
is seen. -/
theorem run_command_observation (i : Instr) (s : State) (h : Machine.Inv s) (hs : s.convState ≠ .busy)
    (hin : s.inputs = [.command (encode i)]) :
    ∃ t, Host.Core.run Sys2Proof.core (1 + s.src.width.toNat * s.src.height.toNat) s = .next t ∧
      endOfRun t = true ∧ observation t = packObservation s.cfg.lenMax s.src (encode i) := by
  have hstep := step_command s (encode i) [] hin
  have hi : Machine.Inv (s.withInputs []) := h.withInputs [] (by simp)
  have hf := formatOfTag_encode i
  rw [Nat.add_comm]
  by_cases hn : s.cfg.lenMax < conversionLength s.src.width s.src.height (formatOf i)
  · rw [start_invalid (encode i) (s.withInputs []) (formatOf i) hs hf hn] at hstep
    refine ⟨_, (run_next _ _ _ hstep).trans (run_quiescent _ _ rfl (by simp [raiseError])), rfl, ?_⟩
    have hpack : pack s.cfg.lenMax s.src (encode i) = .error .invalidDimensions := by simp [pack, hf, hn]
    simp only [packObservation, hpack]
    rfl
  · have hle := Nat.not_lt.1 hn
    rw [start_accepted (encode i) (s.withInputs []) (formatOf i) hs hf hle] at hstep
    obtain ⟨t, hrun, hclean, hsame, hdone⟩ := (hi.cleanInv_withAccepted hf hle).run_pending rfl
      (converting_withAccepted _ _ _) (Pending.count_full _)
    refine ⟨t, (run_next _ _ _ hstep).trans hrun, by simp [endOfRun, hdone], ?_⟩
    rw [hclean.observation_done hdone, hsame.latchedSource, hsame.cfg, hsame.fmtR]
    rfl

/-- Settles O58: both runs end in the observation of `pack` of the same source under the same bound. -/
theorem earlierConversionsDoNotMatter : Obligations.EarlierConversionsDoNotMatter := by
  intro i s1 s2 h1 h2 hs1 hs2 hsrc hmax hin1 hin2
  obtain ⟨t1, hrun1, hend1, hobs1⟩ := run_command_observation i s1 h1 hs1 hin1
  obtain ⟨t2, hrun2, hend2, hobs2⟩ := run_command_observation i s2 h2 hs2 hin2
  exact ⟨t1, t2, hrun1, hrun2, hend1, hend2, by rw [hobs1, hobs2, hsrc, hmax]⟩

end Sys2Proof.Machine
end

section
/-! The pixel function of SRC (spec/10_state.md R35, spec/20_memory.md R47) and the ignored write to LEN (R34). -/

namespace Sys2Proof.Machine

/-- Below `2^32` the key of a coordinate gives the coordinate back. -/
theorem pixelKey_injective {x y x' y' : Nat} (hx : x < 2 ^ 32) (hx' : x' < 2 ^ 32) (h : pixelKey x y = pixelKey x' y') :
    x = x' ∧ y = y' := by
  simp only [pixelKey] at h
  omega

/-- A listed pixel is stored with its listed colour. -/
theorem Source.stored_of_mem {src : Source} (h : src.wf = true) {x y : Nat} {c : Rgba}
    (hc : (pixelKey x y, c) ∈ src.pixels) : src.stored x y = c := by
  obtain ⟨hrise, _⟩ := Bool.and_eq_true_iff.1 h
  rw [Source.stored, lookup_of_mem _ _ _ hrise hc, Option.getD_some]

/-- A pixel that is not listed is stored with the colour `fill`. -/
theorem Source.stored_of_not_mem {src : Source} {x y : Nat} (h : ∀ c, (pixelKey x y, c) ∉ src.pixels) :
    src.stored x y = src.fill := by
  rw [Source.stored, lookup_eq_none _ _ h, Option.getD_none]

/-- Settles O60: keys are injective, and a lookup finds the listed colour or falls back to `fill`. -/
theorem sourcePixelFunction : Obligations.SourcePixelFunction := by
  refine fun src hwf => ⟨fun _ _ _ _ hx _ hx' _ => pixelKey_injective hx hx', fun x y _ _ => ⟨fun c hc => ?_, fun hn => ?_⟩⟩
  · rw [Source.pixel, Source.stored_of_mem hwf hc, asChannels]
  · rw [Source.pixel, Source.stored_of_not_mem hn, asChannels]

/-- Settles O39: the write is a host access that changes no field. -/
theorem lenWriteIsIgnored : Obligations.LenWriteIsIgnored := by
  intro s v rest hin
  rw [step_access s _ rest hin]
  rfl

end Sys2Proof.Machine
end

section
/-! The buffer OUT as the host reads it (spec/20_memory.md R50, R55, R60): the bytes of a conversion below LEN and the words they
form, and that only the host writes at LEN or above. -/

namespace Sys2Proof.Machine

/-! ## The bytes of a conversion below LEN -/

/-- LEN of a running or completed conversion (spec/10_state.md R27). -/
theorem Inv.len_eq {s : State} (h : Machine.Inv s) (hs : s.convState = .busy ∨ s.convState = .done) {f : OutputFormat}
    (hf : formatOfTag s.fmtR = some f) : s.len.toNat = conversionLength s.wR s.hR f := by
  obtain ⟨g, hg, hlen⟩ : ∃ g, formatOfTag s.fmtR = some g ∧ s.len.toNat = conversionLength s.wR s.hR g :=
    hs.elim (fun hb => (h.busy hb).format) fun hd => (h.done hd).2.2
  obtain rfl : f = g := by simpa [hf] using hg
  exact hlen

/-- A byte below LEN belongs to a pixel of the grid (spec/20_memory.md R53). -/
theorem pixel_lt_of_lt_conversionLength {w h : U32} {f : OutputFormat} {off : Nat} (hoff : off < conversionLength w h f) :
    off / bpp f < w.toNat * h.toNat :=
  Nat.div_lt_of_lt_mul (by rwa [Nat.mul_comm])

/-- What a running conversion writes at an offset is the byte of `pack` (spec/41_raster_serializer.md R124). -/
theorem conversionByte_eq_pack {s : State} {f : OutputFormat} (hf : formatOfTag s.fmtR = some f) {off : Nat}
    (hoff : off < conversionLength s.wR s.hR f) : conversionByte off s = (packBytes f (latchedSource s))[off]? := by
  have hpack := packBytes_latched f s (off / bpp f) (off % bpp f) (pixel_lt_of_lt_conversionLength hoff)
    (Nat.mod_lt _ (bpp_pos f))
  rw [Nat.div_add_mod'] at hpack
  rw [hpack, conversionByte, hf]
  rfl

/-- A byte of a pixel that is no longer pending already is the byte of `pack`. -/
theorem CleanInv.read_processed {s : State} (h : CleanInv s) (hs : s.convState = .busy ∨ s.convState = .done)
    {f : OutputFormat} (hf : formatOfTag s.fmtR = some f) {off : Nat} (hoff : off < conversionLength s.wR s.hR f)
    (hpend : Pending.has (off / bpp f) s.pend = false) :
    Memory.read s.out off = (packBytes f (latchedSource s))[off]? := by
  have hbyte := h.bytes hs f hf (off / bpp f) (pixel_lt_of_lt_conversionLength hoff) hpend (off % bpp f)
    (Nat.mod_lt _ (bpp_pos f))
  rwa [Nat.div_add_mod'] at hbyte

/-- In a running or completed conversion, a byte that is not pending belongs to a pixel that is not. -/
theorem Inv.not_has_of_not_bytePending {s : State} (h : Machine.Inv s) (hs : s.convState = .busy ∨ s.convState = .done)
    {f : OutputFormat} (hf : formatOfTag s.fmtR = some f) {off : Nat} (hoff : bytePending off s = false) :
    Pending.has (off / bpp f) s.pend = false := by
  rcases hs with hb | hd
  · by_contra hpend
    have hbyte := (bytePending_iff off s).2 ⟨f, hf, hb, by simpa using hpend⟩
    rw [hoff] at hbyte
    cases hbyte
  · rw [(h.done hd).1]
    rfl

theorem finalByte_of_pending {off : Nat} {s : State} {v : Byte} (h : bytePending off s = true) (hlate : s.late = [])
    (hv : conversionByte off s = some v) : finalByte off s = v := by
  simp [finalByte, h, hlate, hv]

theorem finalByte_of_not_pending {off : Nat} {s : State} {v : Byte} (h : bytePending off s = false)
    (hv : Memory.read s.out off = some v) : finalByte off s = v := by
  simp [finalByte, h, hostByte, hv]

/-- Settles O41: a pending byte is still to be written with the byte of `pack`, and every other byte already holds it. -/
theorem finalByteIsThePackByte : Obligations.FinalByteIsThePackByte := by
  intro s f off h hs hf hoff
  rw [h.inv.len_eq hs hf] at hoff
  obtain ⟨v, hv⟩ : ∃ v, (packBytes f (latchedSource s))[off]? = some v :=
    ⟨_, List.getElem?_eq_getElem (by rwa [packBytes_length])⟩
  rw [hv]
  congr 1
  cases hp : bytePending off s with
  | true => exact (finalByte_of_pending hp h.noLate ((conversionByte_eq_pack hf hoff).trans hv)).symm
  | false =>
    have hread := h.read_processed hs hf hoff (h.inv.not_has_of_not_bytePending hs hf hp)
    exact (finalByte_of_not_pending hp (hread.trans hv)).symm

/-! ## A host read -/

/-- After DONE has been read, or at LEN or above, a host read gives what stands in OUT. -/
theorem readOut_settled (pick : Bool) {off : Nat} {s : State} (h : s.doneRead = true ∨ s.len.toNat ≤ off) :
    readOut pick off s = hostByte s.out off := by
  rw [readOut, if_neg]
  rintro ⟨hlt, hread⟩
  rcases h with h | h
  · rw [h] at hread
    cases hread
  · omega

/-- Before DONE has been read, a host read below LEN gives the old or the final value. -/
theorem readOut_early (pick : Bool) {off : Nat} {s : State} (h : s.doneRead = false ∧ off < s.len.toNat) :
    readOut pick off s = hostByte s.outOld off ∨ readOut pick off s = finalByte off s := by
  rw [readOut, if_pos ⟨h.2, h.1⟩]
  cases pick
  · exact .inl rfl
  · exact .inr rfl

/-- Settles O40: the read is a host access whose value is `readOut` under the draw. -/
theorem hostReadOfOut : Obligations.HostReadOfOut := by
  intro s off rest hin
  refine ⟨readOut (Config.drawBit s.draws) off.toNat s, ?_, readOut_settled _, readOut_early _⟩
  rw [step_access s _ rest hin]
  rfl

/-! ## Bytes at LEN or above -/

/-- A host write waits only for bytes below LEN. -/
theorem Inv.read_late_above_len {s : State} (h : Machine.Inv s) {a : Nat} (ha : s.len.toNat ≤ a) :
    Memory.read s.late a = none := by
  refine Option.eq_none_iff_forall_ne_some.2 fun v hv => ?_
  obtain ⟨f, hf, hb, hpend⟩ := (bytePending_iff a s).1 (h.latePending a v hv)
  have hlt := h.pixel_byte_lt_len (.inl hb) hf ((h.busy hb).inGrid _ hpend) (Nat.mod_lt a (bpp_pos f))
  rw [Nat.div_add_mod'] at hlt
  omega

/-- The block's turn writes below LEN only. -/
theorem Inv.blockTurn_read_above_len {s t : State} (h : Machine.Inv s) (ht : Machine.blockTurn s = .next t) {a : Nat}
    (ha : s.len.toNat ≤ a) : Memory.read t.out a = Memory.read s.out a := by
  by_cases hs : s.convState = .busy
  · obtain ⟨i, f, m, l, cx, cy, d, hi, hf, he, hw, _⟩ := h.blockTurn_busy hs
    rw [he] at ht
    injection ht with ht
    obtain ⟨_, _, _, hfits⟩ := (h.busy hs).pixel_fits hf ((h.busy hs).inGrid i hi)
    rw [← ht, steppedPixel_out]
    exact hw.other a (.inr (by omega))
  · rw [blockTurn_quiescent s hs] at ht
    injection ht with ht
    rw [ht]

/-- Of the host's accesses only a write of OUT changes OUT. -/
theorem hostAccess_keeps_out {a : HostAccess} {s t : State} (h : hostAccess a s = .next t)
    (ha : ∀ off v, a ≠ .writeOut off v) : t.out = s.out := by
  cases a with
  | readStatus => cases h; rfl
  | readLen => cases h; rfl
  | poll => cases h; unfold poll; split_ifs <;> rfl
  | writeStatus v => cases h; rfl
  | writeLen v => cases h; rfl
  | readOut off => cases h; rfl
  | writeOut off v => exact absurd rfl (ha off v)
  | supplySrc src =>
    simp only [hostAccess, supplySrc] at h
    split_ifs at h
    cases h
    rfl

theorem start_keeps_out {c : Byte} {s t : State} (h : start c s = .next t) : t.out = s.out := by
  obtain ⟨_, ⟨_, rfl⟩ | ⟨_, _, ⟨_, rfl⟩ | ⟨_, rfl⟩⟩⟩ := start_next_cases c s t h <;> rfl

/-- Settles O54: the block writes below LEN, and a reset lands host writes that wait there. -/
theorem bytesAboveLenStay : Obligations.BytesAboveLenStay := by
  intro s t h hno ht a ha
  obtain ⟨r, hr, hmove⟩ := step_next_cases ht
  have hi : Machine.Inv (s.withInputs r) := h.withInputs r fun i hi => h.inputsForm i (hr hi)
  rcases hmove with hb | ⟨c, hin, hc⟩ | ⟨_, rfl⟩ | ⟨c, _, hc⟩
  · exact hi.blockTurn_read_above_len hb ha
  · rw [hostAccess_keeps_out hc fun off v hw => hno off v r (hw ▸ hin)]
    rfl
  · exact Memory.read_overlay_none _ _ a (h.read_late_above_len ha)
  · rw [start_keeps_out hc]
    rfl

end Sys2Proof.Machine
end

section
/-! Mixed-width views of OUT (spec/20_memory.md R50): two or four bytes of OUT read as one word. -/

namespace Sys2Proof.Machine

/-! ## Words in memory -/

theorem Memory.readBe16_eq {m : Memory} {off : Nat} {hi lo : Byte} (h0 : Memory.read m off = some hi)
    (h1 : Memory.read m (off + 1) = some lo) : Memory.readBe16 m off = some (hi ++ lo) := by
  simp only [Memory.readBe16, h0, h1]

theorem Memory.readLe16_eq {m : Memory} {off : Nat} {lo hi : Byte} (h0 : Memory.read m off = some lo)
    (h1 : Memory.read m (off + 1) = some hi) : Memory.readLe16 m off = some (hi ++ lo) := by
  simp only [Memory.readLe16, h0, h1]

/-- Memory holds the bytes `l` from offset `off` on. -/
def Memory.Holds (m : Memory) (off : Nat) (l : List Byte) : Prop :=
  ∀ k b, l[k]? = some b → Memory.read m (off + k) = some b

namespace Memory.Holds

variable {m : Memory} {off : Nat}

/-- The two bytes of `BE16` read big-endian are its word. -/
theorem readBe16 {v : U16} (h : Memory.Holds m off (be16 v)) : Memory.readBe16 m off = some v :=
  (Memory.readBe16_eq (h 0 _ rfl) (h 1 _ rfl)).trans (congrArg some BitVec.extractLsb'_append_extractLsb')

theorem readLe16 {v : U16} (h : Memory.Holds m off (be16 v)) :
    Memory.readLe16 m off = some (v.extractLsb' 0 8 ++ v.extractLsb' 8 8) :=
  Memory.readLe16_eq (h 0 _ rfl) (h 1 _ rfl)

/-- The four bytes of `BE32` read big-endian are its word. -/
theorem readBe32 {v : U32} (h : Memory.Holds m off (be32 v)) : Memory.readBe32 m off = some v := by
  have hhi : Memory.readBe16 m off = some (v.extractLsb' 16 16) :=
    (Memory.readBe16_eq (h 0 _ rfl) (h 1 _ rfl)).trans
      (congrArg some (BitVec.extractLsb'_append_extractLsb'_eq_extractLsb' rfl))
  have hlo : Memory.readBe16 m (off + 2) = some (v.extractLsb' 0 16) :=
    (Memory.readBe16_eq (h 2 _ rfl) (h 3 _ rfl)).trans
      (congrArg some (BitVec.extractLsb'_append_extractLsb'_eq_extractLsb' rfl))
  simp only [Memory.readBe32, hhi, hlo]
  exact congrArg some BitVec.extractLsb'_append_extractLsb'

theorem readLe32 {v : U32} (h : Memory.Holds m off (be32 v)) :
    Memory.readLe32 m off =
      some (v.extractLsb' 0 8 ++ v.extractLsb' 8 8 ++ v.extractLsb' 16 8 ++ v.extractLsb' 24 8) := by
  have hlo : Memory.readLe16 m off = some (v.extractLsb' 16 8 ++ v.extractLsb' 24 8) :=
    Memory.readLe16_eq (h 0 _ rfl) (h 1 _ rfl)
  have hhi : Memory.readLe16 m (off + 2) = some (v.extractLsb' 0 8 ++ v.extractLsb' 8 8) :=
    Memory.readLe16_eq (h 2 _ rfl) (h 3 _ rfl)
  simp only [Memory.readLe32, hlo, hhi]
  exact congrArg some BitVec.append_assoc'

end Memory.Holds

/-! ## The packed words of a conversion -/

/-- The packed RGB565 value of pixel `i` of the conversion. -/
def latchedWord565 (i : Nat) (s : State) : U16 :=
  enc565 (latchedPixelColour i s).r (latchedPixelColour i s).g (latchedPixelColour i s).b

/-- The packed ARGB8888 value of pixel `i` of the conversion. -/
def latchedWord8888 (i : Nat) (s : State) : U32 :=
  enc8888 (if s.aR then (latchedPixelColour i s).a else 255#8) (latchedPixelColour i s).r (latchedPixelColour i s).g
    (latchedPixelColour i s).b

theorem encpix_rgb565_latched (i : Nat) (s : State) :
    encpix .rgb565 (latchedPixel i s) s.aR = be16 (latchedWord565 i s) := by
  cases ha : s.aR <;> simp [encpix, latchedPixel, latchedWord565, asChannels, ha] <;> rfl

theorem encpix_argb8888_latched (i : Nat) (s : State) :
    encpix .argb8888 (latchedPixel i s) s.aR = be32 (latchedWord8888 i s) := by
  cases ha : s.aR <;> simp [encpix, latchedPixel, latchedWord8888, asChannels, ha] <;> rfl

/-- In DONE, OUT holds the bytes of every pixel of the grid. -/
theorem CleanInv.holds_pixel {s : State} (h : CleanInv s) (hd : s.convState = .done) {f : OutputFormat}
    (hf : formatOfTag s.fmtR = some f) {i : Nat} (hi : i < s.wR.toNat * s.hR.toNat) :
    Memory.Holds s.out (i * bpp f) (encpix f (latchedPixel i s) s.aR) := fun k b hb => by
  obtain ⟨hk, _⟩ := List.getElem?_eq_some_iff.1 hb
  rw [encpix_length] at hk
  rw [h.bytes (.inr hd) f hf i hi (by rw [(h.inv.done hd).1]; rfl) k hk, packBytes_latched f s i k hi hk, hb]

theorem CleanInv.holds_word565 {s : State} (h : CleanInv s) (hd : s.convState = .done) (hf : s.fmtR = 0x00#8) {i : Nat}
    (hi : i < s.wR.toNat * s.hR.toNat) : Memory.Holds s.out (2 * i) (be16 (latchedWord565 i s)) := by
  rw [← encpix_rgb565_latched, Nat.mul_comm]
  exact h.holds_pixel hd (by rw [hf, formatOfTag_zero]) hi

theorem CleanInv.holds_word8888 {s : State} (h : CleanInv s) (hd : s.convState = .done) (hf : s.fmtR = 0x01#8) {i : Nat}
    (hi : i < s.wR.toNat * s.hR.toNat) : Memory.Holds s.out (4 * i) (be32 (latchedWord8888 i s)) := by
  rw [← encpix_argb8888_latched, Nat.mul_comm]
  exact h.holds_pixel hd (by rw [hf, formatOfTag_one]) hi

/-- Settles O51: OUT holds each pixel's word byte by byte, most significant first, and the next pixel's word right after it. -/
theorem mixedWidthViewsOfOut : Obligations.MixedWidthViewsOfOut := by
  refine fun s h hd => ⟨fun hf i hi => ?_, fun hf i hi => ?_⟩
  · have hv := h.holds_word565 hd hf hi
    refine ⟨_, rfl, hv.readBe16, hv.readLe16, ?_⟩
    rintro _ hnext rfl
    have hw := h.holds_word565 hd hf hnext
    exact Memory.readBe16_eq (hv 1 _ rfl) (hw 0 _ rfl)
  · have hv := h.holds_word8888 hd hf hi
    refine ⟨_, rfl, hv.readBe32, hv.readLe32, ?_⟩
    rintro _ hnext rfl
    have hw := h.holds_word8888 hd hf hnext
    exact Memory.readBe16_eq (hv 3 _ rfl) (hw 0 _ rfl)

end Sys2Proof.Machine
end

section
/-! A change of SRC during a conversion (spec/20_memory.md R64, spec/70_reset_and_hazards.md R184): the pixel steps read the
source that START found, so they do the same whatever stands in SRC. -/

namespace Sys2Proof.Machine

/-- The outcome of a step, with another source in place. -/
def resultWithSrc (src : Source) (r : Result) : Result := andThen r fun t => .next (t.withSrc src)

/-- `g` does not see SRC: with another source in place it answers the same, that source in place. -/
def IgnoresSrc (g : State → Result) : Prop := ∀ (src : Source) (s : State), g (s.withSrc src) = resultWithSrc src (g s)

theorem IgnoresSrc.andThen {g : State → Result} (hg : IgnoresSrc g) (src : Source) (r : Result) :
    andThen (resultWithSrc src r) g = resultWithSrc src (andThen r g) := by
  cases r with
  | next t => exact hg src t
  | fault e => rfl
  | refused e => rfl

/-! ## The parts of a pixel step -/

theorem memWrite_outside (off : Nat) (v : Byte) (s : State) (h : ¬ off < s.len.toNat) :
    memWrite off v s = .fault .memWriteOutsideOut := if_neg h

theorem memWrite_ignoresSrc (off : Nat) (v : Byte) : IgnoresSrc (memWrite off v) := fun src s => by
  by_cases hoff : off < s.len.toNat
  · rw [memWrite_next off v s hoff]
    exact memWrite_next off v (s.withSrc src) hoff
  · rw [memWrite_outside off v s hoff]
    exact memWrite_outside off v (s.withSrc src) hoff

theorem memWriteBytes_ignoresSrc (off : Nat) (vs : List Byte) : IgnoresSrc (memWriteBytes off vs) := by
  induction vs generalizing off with
  | nil => exact fun _ _ => rfl
  | cons v vs ih =>
    intro src s
    rw [memWriteBytes, memWrite_ignoresSrc, (ih (off + 1)).andThen, memWriteBytes]

theorem landLate_withSrc (src : Source) (off n : Nat) (s : State) :
    landLate off n (s.withSrc src) = (landLate off n s).withSrc src := by
  induction n generalizing off s with
  | zero => rfl
  | succ n ih =>
    cases hv : Memory.read s.late off with
    | none =>
      simp only [landLate, State.withSrc_late, hv]
      exact ih _ _
    | some v =>
      simp only [landLate, State.withSrc_late, hv]
      exact ih _ (s.withBuffers _ _ _)

theorem advance_withSrc (src : Source) (s : State) : advance (s.withSrc src) = (advance s).withSrc src := by
  by_cases hrow : s.x.toNat + 1 < s.wR.toNat
  · rw [advance_row s hrow]
    exact advance_row (s.withSrc src) hrow
  · rw [advance_wrap s (Nat.not_lt.1 hrow)]
    exact advance_wrap (s.withSrc src) (Nat.not_lt.1 hrow)

theorem completeIfEmpty_empty (s : State) (h : s.pend = []) : completeIfEmpty s = s.withConvState .done := if_pos h

theorem completeIfEmpty_pending (s : State) (h : s.pend ≠ []) : completeIfEmpty s = s := if_neg h

theorem completeIfEmpty_withSrc (src : Source) (s : State) :
    completeIfEmpty (s.withSrc src) = (completeIfEmpty s).withSrc src := by
  by_cases hpend : s.pend = []
  · rw [completeIfEmpty_empty s hpend]
    exact completeIfEmpty_empty (s.withSrc src) hpend
  · rw [completeIfEmpty_pending s hpend]
    exact completeIfEmpty_pending (s.withSrc src) hpend

theorem processPixel_ignoresSrc (x y : Nat) : IgnoresSrc (processPixel x y) := fun src s => by
  have hread : pixRead x y (s.withSrc src) = pixRead x y s := rfl
  simp only [processPixel, hread, State.withSrc_fmtR]
  cases pixRead x y s with
  | none => rfl
  | some c =>
    cases formatOfTag s.fmtR with
    | none => rfl
    | some f =>
      refine Eq.trans (congrArg (Machine.andThen · _) (memWriteBytes_ignoresSrc _ _ src (s.withPixel _ _))) ?_
      refine IgnoresSrc.andThen (fun src' t => ?_) src _
      rw [landLate_withSrc]
      rfl

/-! ## The pixel step -/

theorem pixelStepRowMajor_ignoresSrc : IgnoresSrc pixelStepRowMajor := fun src s => by
  rw [pixelStepRowMajor, pixelStepRowMajor, State.withSrc_x, State.withSrc_y, processPixel_ignoresSrc _ _ src s]
  refine IgnoresSrc.andThen (fun src' t => ?_) src _
  rw [advance_withSrc, completeIfEmpty_withSrc]
  rfl

/-- A pending pixel can be chosen. -/
theorem pixelStepChoosing_has (i : Nat) (s : State) (h : Pending.has i s.pend = true) :
    pixelStepChoosing i s =
      andThen (processPixel (i % s.wR.toNat) (i / s.wR.toNat) s) fun t => .next (completeIfEmpty (freeCursor t)) :=
  if_pos h

theorem pixelStepChoosing_not_has (i : Nat) (s : State) (h : ¬ Pending.has i s.pend = true) :
    pixelStepChoosing i s = .fault .noPendingPixel := if_neg h

theorem pixelStepChoosing_ignoresSrc (i : Nat) : IgnoresSrc (pixelStepChoosing i) := fun src s => by
  by_cases hi : Pending.has i s.pend = true
  · rw [pixelStepChoosing_has i s hi, pixelStepChoosing_has i (s.withSrc src) hi, processPixel_ignoresSrc _ _ src s]
    refine IgnoresSrc.andThen (fun src' t => ?_) src _
    exact congrArg Host.Outcome.next (completeIfEmpty_withSrc src' (freeCursor t))
  · rw [pixelStepChoosing_not_has i s hi]
    exact pixelStepChoosing_not_has i (s.withSrc src) hi

theorem pixelStep_ignoresSrc : IgnoresSrc pixelStep := fun src s => by
  have hchoice : chosenIndex (s.withSrc src) = chosenIndex s := rfl
  simp only [pixelStep, State.withSrc_cfg, hchoice]
  cases s.cfg.issueOrder with
  | rowMajor => exact pixelStepRowMajor_ignoresSrc src s
  | any =>
    cases chosenIndex s with
    | none => rfl
    | some i => exact pixelStepChoosing_ignoresSrc i src s

/-- Settles O43: a change is put in place or refused as `keepsPixelValues` says, and the pixel step does not see SRC. -/
theorem sourceChangeDuringConversion : Obligations.SourceChangeDuringConversion := by
  intro s src rest hin
  have hstep : step s = supplySrc src (s.withInputs rest) := step_access s _ rest hin
  rw [hstep]
  refine ⟨fun hs => ?_, fun hkeep => ?_, fun x y hs hx hy hx' hy' hne => ?_, fun t ht => ?_⟩
  · exact supplySrc_next src _ fun hb => absurd hb hs
  · exact supplySrc_next src _ fun _ => (keepsPixelValues_iff src _).2 hkeep
  · refine supplySrc_refused src _ hs (Bool.eq_false_iff.2 fun hkeep => hne ?_)
    exact (keepsPixelValues_iff src _).1 hkeep x y hx hy hx' hy'
  · have hsrc := pixelStep_ignoresSrc src s
    rw [ht] at hsrc
    exact hsrc

end Sys2Proof.Machine
end

section
/-! CONVERT (spec/30_encoding.md R87): START, then POLL, which reads STATUS before each pixel step and once more in DONE. -/

namespace Sys2Proof.Machine

/-! ## One POLL -/

/-- A POLL that reads BUSY comes again, after a turn of the block (log 16). -/
theorem poll_busy {s : State} (h : s.convState = .busy) :
    poll s = (readStatus s).withInputs (.block :: .access .poll :: s.inputs) := if_pos h

/-- A POLL that reads anything else is one READ STATUS. -/
theorem poll_quiescent {s : State} (h : s.convState ≠ .busy) : poll s = readStatus s := if_neg h

theorem step_poll {s : State} {r : List Input} (h : s.inputs = .access .poll :: r) :
    step s = .next (poll (s.withInputs r)) := step_access s .poll r h

/-- POLL reads no byte of OUT and writes none, so it keeps every hazard. -/
theorem CleanInv.poll {s : State} (h : CleanInv s) {r : List Input} (hin : s.inputs = .access .poll :: r) :
    CleanInv (poll (s.withInputs r)) :=
  hazardKeepingStepKeepsBytesFinal s _ h (by simp [keepsHazards, hin]) (step_poll hin)

/-- The inputs to come are no part of a conversion. -/
theorem sameConversion_withInputs (s : State) (r : List Input) : SameConversion s (s.withInputs r) :=
  ⟨rfl, rfl, rfl, rfl, rfl, rfl, rfl, rfl⟩

/-- POLL writes no register of the block (spec/41_raster_serializer.md R143). -/
theorem poll_sameConversion (s : State) (r : List Input) : SameConversion s (poll (s.withInputs r)) :=
  (sameConversion_withInputs s r).trans (hostAccess_sameConversion (a := .poll) rfl)

/-- STATUS of a completed conversion reads as 0x02 (spec/30_encoding.md R75, R76). -/
theorem Inv.statusWord_done {s : State} (h : Machine.Inv s) (hd : s.convState = .done) : statusWord s = 0x02#8 := by
  have herr : s.errCode = .none := by simpa [hd] using h.errCode
  rw [statusWord, herr, hd]
  rfl

/-! ## The whole loop -/

/-- The host has read DONE: POLL has ended. -/
structure DonePolled (s : State) : Prop where
  done     : s.convState = .done
  inputs   : s.inputs = []
  doneRead : s.doneRead = true
  seen     : s.seen.head? = some (.status 0x02#8)

/-- The POLL of a completed conversion is the last one. -/
theorem CleanInv.donePolled_poll {s : State} (h : CleanInv s) (hd : s.convState = .done) :
    DonePolled (Machine.poll (s.withInputs [])) := by
  rw [poll_quiescent (by simp [hd])]
  refine ⟨hd, rfl, by simp [hd], ?_⟩
  exact congrArg (some ∘ Observation.status) (h.inv.statusWord_done hd)

/-- An input that gives the block its turn while BUSY takes one pixel. -/
theorem CleanInv.step_block {s : State} (h : CleanInv s) {r : List Input} (hin : s.inputs = .block :: r)
    (hs : s.convState = .busy) :
    ∃ t, step s = .next t ∧ CleanInv t ∧ SameConversion s t ∧ t.inputs = r ∧ Converting t ∧
      Pending.count t.pend + 1 = Pending.count s.pend := by
  have hclean := h.withInputs r fun i hi => h.inv.inputsForm i (by simp [hin, hi])
  obtain ⟨t, ht, hclean', hsame, hin', hconv, hcount⟩ := hclean.blockTurn_busy hs
  exact ⟨t, (Machine.step_block s r hin).trans ht, hclean', (sameConversion_withInputs s r).trans hsame, hin', hconv, hcount⟩

/-- While BUSY, a POLL and the turn of the block after it process one pixel, with POLL to come again. -/
theorem CleanInv.poll_then_pixel {s : State} (h : CleanInv s) (hin : s.inputs = [.access .poll])
    (hs : s.convState = .busy) :
    ∃ t, Host.Core.run Sys2Proof.core 2 s = .next t ∧ CleanInv t ∧ SameConversion s t ∧
      t.inputs = [.access .poll] ∧ Converting t ∧ Pending.count t.pend + 1 = Pending.count s.pend := by
  have hpoll : Machine.poll (s.withInputs []) =
      (readStatus (s.withInputs [])).withInputs [.block, .access .poll] := poll_busy hs
  obtain ⟨t, ht, hclean, hsame, hin', hconv, hcount⟩ := (h.poll hin).step_block (r := [.access .poll])
    (by rw [hpoll]; rfl) (by rw [hpoll]; exact hs)
  refine ⟨t, ?_, hclean, (poll_sameConversion s []).trans hsame, hin', hconv, by rw [hcount, hpoll]; rfl⟩
  rw [run_next 1 s _ (step_poll hin), run_next 0 _ t ht, run_zero]

/-- POLL of a conversion with `n` pixels pending reads STATUS `n + 1` times, with `n` turns of the block in between. -/
theorem CleanInv.run_poll {n : Nat} {s : State} (h : CleanInv s) (hin : s.inputs = [.access .poll]) (hs : Converting s)
    (hn : Pending.count s.pend = n) :
    ∃ t, Host.Core.run Sys2Proof.core (2 * n + 1) s = .next t ∧ CleanInv t ∧ SameConversion s t ∧ DonePolled t := by
  induction n generalizing s with
  | zero =>
    have hd : s.convState = .done := by rw [hs, if_pos hn]
    exact ⟨_, run_next 0 s _ (step_poll hin), h.poll hin, poll_sameConversion s [], h.donePolled_poll hd⟩
  | succ n ih =>
    have hbusy : s.convState = .busy := by rw [hs, if_neg (by omega)]
    obtain ⟨u, hu, hclean, hsame, hin', hconv, hcount⟩ := h.poll_then_pixel hin hbusy
    obtain ⟨t, ht, hclean', hsame', hdone⟩ := ih hclean hin' hconv (by omega)
    refine ⟨t, ?_, hclean', hsame.trans hsame', hdone⟩
    rw [show 2 * (n + 1) + 1 = 2 + (2 * n + 1) by omega, run_add 2 _ s u hu, ht]

/-- Settles O59: START leaves a conversion with every pixel of SRC pending, and POLL runs it to the end. -/
theorem convertPollsUntilDone : Obligations.ConvertPollsUntilDone := by
  intro i s h hs hin hn
  have hf := formatOfTag_encode i
  have hstep := step_command s (encode i) [.access .poll] hin
  rw [start_accepted (encode i) (s.withInputs [.access .poll]) (formatOf i) hs hf hn] at hstep
  have hi : Machine.Inv (s.withInputs [.access .poll]) := h.withInputs _ (by decide)
  obtain ⟨t, hrun, hclean, hsame, hdone⟩ := (hi.cleanInv_withAccepted hf hn).run_poll rfl
    (converting_withAccepted _ _ _) (Pending.count_full _)
  obtain ⟨bytes, hpack, _, hslice⟩ := doneOutputEqualsPack t hclean hdone.done
  refine ⟨t, bytes, ?_, ?_, hdone.inputs, hdone.doneRead, hdone.done, hdone.seen, hslice⟩
  · rw [show 2 + 2 * (s.src.width.toNat * s.src.height.toNat) = 2 * (s.src.width.toNat * s.src.height.toNat) + 1 + 1 by
      omega]
    exact (run_next _ _ _ hstep).trans hrun
  · rw [hsame.cfg, hsame.fmtR, hsame.latchedSource] at hpack
    exact hpack

end Sys2Proof.Machine
end

section
/-! The command byte (spec/30_encoding.md R70 to R74): the decoder by its two cases, the encoder as its inverse, and the step that
runs what it reads. -/

namespace Sys2Proof

@[simp] theorem decode_encode (i : Instr) : decode (encode i) = .instr i := by cases i <;> rfl

/-- R72: a tag of 2 or above is reserved. -/
theorem decode_reserved {c : Byte} (h : 2 ≤ c.toNat) : decode c = .reserved c := by
  have h0 : c ≠ 0x00#8 := by rintro rfl; simp at h
  have h1 : c ≠ 0x01#8 := by rintro rfl; simp at h
  rw [decode, if_neg h0, if_neg h1]

/-- R74: a byte is the tag of an instruction or reserved. -/
theorem eq_encode_or_reserved (c : Byte) : (∃ i, c = encode i) ∨ 2 ≤ c.toNat := by
  by_cases h0 : c.toNat = 0
  · exact .inl ⟨.packRgb565, BitVec.eq_of_toNat_eq h0⟩
  by_cases h1 : c.toNat = 1
  · exact .inl ⟨.packArgb8888, BitVec.eq_of_toNat_eq h1⟩
  · exact .inr (by omega)

theorem decode_eq_instr_iff (c : Byte) (i : Instr) : decode c = .instr i ↔ encode i = c := by
  refine ⟨fun h => ?_, fun h => h ▸ decode_encode i⟩
  obtain ⟨j, rfl⟩ | hc := eq_encode_or_reserved c
  · rw [decode_encode] at h
    injection h with h
    rw [h]
  · simp [decode_reserved hc] at h

theorem decode_eq_reserved_iff (c d : Byte) : decode c = .reserved d ↔ c = d ∧ 2 ≤ c.toNat := by
  obtain ⟨i, rfl⟩ | hc := eq_encode_or_reserved c
  · have hsmall : (encode i).toNat < 2 := by cases i <;> decide
    simp [Nat.not_le.2 hsmall]
  · simp [decode_reserved hc, hc]

/-- The byte the host writes for a table's word of one byte. -/
theorem fetched_byte (c : Byte) : BitVec.ofNat 8 (c.toNat % 2 ^ 8) = c := by
  rw [Nat.mod_eq_of_lt c.isLt, BitVec.ofNat_toNat, BitVec.setWidth_eq]

theorem decodeTableWord_encode (i : Instr) : decodeTableWord 8 (encode i).toNat = some i := by
  rw [decodeTableWord, fetched_byte, decode_encode]

theorem decodeTableWord_reserved {c : Byte} (h : 2 ≤ c.toNat) : decodeTableWord 8 c.toNat = none := by
  rw [decodeTableWord, fetched_byte, decode_reserved h]

/-- Settles O1: the two defined bytes are the instructions' tags, and the rest is reserved. -/
theorem decodeOfEveryByte : Obligations.DecodeOfEveryByte := by
  refine fun c => ⟨fun h0 => ?_, fun h1 => ?_, decode_reserved⟩
  · exact (decode_eq_instr_iff c _).2 (BitVec.eq_of_toNat_eq h0.symm)
  · exact (decode_eq_instr_iff c _).2 (BitVec.eq_of_toNat_eq h1.symm)

/-- Settles O2: a byte decodes to an instruction exactly where it encodes it, and a reserved byte decodes to none. -/
theorem decodeEncodeAgree : Obligations.DecodeEncodeAgree := by
  refine ⟨decode_encode, fun c i => (decode_eq_instr_iff c i).1, fun c d h => ⟨((decode_eq_reserved_iff c d).1 h).1, ?_⟩⟩
  intro i hi
  rw [← hi, decode_encode] at h
  cases h

/-- Settles O3: two words are encodings, and two are reserved bytes. -/
theorem tableWordsDecode : Obligations.TableWordsDecode :=
  ⟨decodeTableWord_encode .packRgb565, decodeTableWord_encode .packArgb8888,
    decodeTableWord_reserved (c := 0b00000010#8) (by decide), decodeTableWord_reserved (c := 0b11111111#8) (by decide)⟩

namespace Machine

/-- A CMD write of a defined byte runs the instruction it decodes to. -/
theorem writeCmd_instr {c : Byte} {i : Instr} (h : decode c = .instr i) (s : State) : writeCmd c s = exec i s := by
  rw [writeCmd, h]

theorem step_writeCmd {s : State} {c : Byte} {r : List Input} (h : s.inputs = .command c :: r) :
    step s = writeCmd c (s.withInputs r) := by
  rw [step_command s c r h, writeCmd_eq_start]

/-- The word of one byte puts the write of that byte first. -/
theorem withFetchWord_byte (s : State) (c : Byte) :
    s.withFetchWord 8 c.toNat = s.withInputs (.command c :: s.inputs) := by
  rw [State.withFetchWord, fetched_byte]

/-- Settles O4: the step is the CMD write, and the CMD write is the decoded instruction. -/
theorem stepRunsDecodedInstruction : Obligations.StepRunsDecodedInstruction := by
  refine ⟨fun s c rest hin => ⟨step_writeCmd hin, fun i hi => ?_⟩, fun s i => ?_⟩
  · exact (step_writeCmd hin).trans (writeCmd_instr hi _)
  · rw [withFetchWord_byte, step_writeCmd rfl, writeCmd_instr (decode_encode i)]
    rfl

end Machine
end Sys2Proof
end

section
/-! The pixel encodings (spec/30_encoding.md R79 to R82): the packed words as the kept bits side by side, and from these the fields
of the RGB565 word and the bytes of both formats. -/

namespace Sys2Proof.Machine

/-- The middle one of three parts stands just above the last. -/
theorem extractLsb'_middle {u v w : Nat} (x : BitVec u) (y : BitVec v) (z : BitVec w) :
    (x ++ y ++ z).extractLsb' w v = y := by
  rw [BitVec.extractLsb'_append_eq_of_le (Nat.le_refl w), Nat.sub_self, BitVec.extractLsb'_append_eq_right]

/-- The first one of three parts stands above the other two. -/
theorem extractLsb'_first {u v w : Nat} (x : BitVec u) (y : BitVec v) (z : BitVec w) :
    (x ++ y ++ z).extractLsb' (v + w) u = x := by
  rw [BitVec.extractLsb'_append_eq_of_le (Nat.le_add_left w v), Nat.add_sub_cancel, BitVec.extractLsb'_append_eq_left]

/-- Shifting the low `k` bits out keeps the rest. -/
theorem zeroExtend_ushiftRight {w : Nat} (v : BitVec w) (k n : Nat) :
    (v >>> k).zeroExtend n = (v.extractLsb' k (w - k)).zeroExtend n := by
  ext i hi
  rw [BitVec.getElem_setWidth, BitVec.getElem_setWidth, BitVec.getLsbD_ushiftRight, BitVec.getLsbD_extractLsb']
  by_cases h : i < w - k
  · rw [decide_eq_true h, Bool.true_and]
  · rw [BitVec.getLsbD_of_ge v (k + i) (by omega), Bool.and_false]

/-- R79: the RGB565 word is its three fields side by side. -/
theorem enc565_eq_append (r g b : Byte) :
    enc565 r g b = r.extractLsb' 3 5 ++ g.extractLsb' 2 6 ++ b.extractLsb' 3 5 := by
  have h := BitVec.setWidth_append_append_eq_shiftLeft_setWidth_or (b := r.extractLsb' 3 5) (b' := g.extractLsb' 2 6)
    (b'' := b.extractLsb' 3 5) (w''' := 16)
  rw [BitVec.setWidth_eq] at h
  rw [h, enc565, zeroExtend_ushiftRight r, zeroExtend_ushiftRight g, zeroExtend_ushiftRight b]

/-- R80: the ARGB8888 word is its four channels side by side. -/
theorem enc8888_eq_append (a r g b : Byte) : enc8888 a r g b = a ++ r ++ g ++ b := by
  have h := BitVec.setWidth_append_append_append_eq_shiftLeft_setWidth_or (b := a) (b' := r) (b'' := g) (b''' := b)
    (w'''' := 32)
  rw [BitVec.setWidth_eq] at h
  rw [h, enc8888]

/-- R81: green is split across the two bytes of the RGB565 word. -/
theorem enc565_eq_bytes (r g b : Byte) :
    enc565 r g b =
      (r.extractLsb' 3 5 ++ g.extractLsb' 5 3) ++ (g.extractLsb' 2 3 ++ b.extractLsb' 3 5) := by
  have hsplit : g.extractLsb' 5 3 ++ g.extractLsb' 2 3 = g.extractLsb' 2 6 :=
    BitVec.extractLsb'_append_extractLsb'_eq_extractLsb' rfl
  rw [enc565_eq_append, ← hsplit, BitVec.append_assoc', BitVec.append_assoc']
  rfl

theorem be16_append (hi lo : Byte) : be16 (hi ++ lo) = [hi, lo] := by
  rw [be16, BitVec.extractLsb'_append_eq_left, BitVec.extractLsb'_append_eq_right]

theorem be32_append (b0 b1 b2 b3 : Byte) : be32 (b0 ++ b1 ++ b2 ++ b3) = [b0, b1, b2, b3] := by
  have h0 : (b0 ++ b1 ++ b2 ++ b3).extractLsb' 24 8 = b0 := by
    rw [BitVec.extractLsb'_append_eq_of_le (by decide)]
    exact extractLsb'_first b0 b1 b2
  have h1 : (b0 ++ b1 ++ b2 ++ b3).extractLsb' 16 8 = b1 := by
    rw [BitVec.extractLsb'_append_eq_of_le (by decide)]
    exact extractLsb'_middle b0 b1 b2
  have h2 : (b0 ++ b1 ++ b2 ++ b3).extractLsb' 8 8 = b2 := extractLsb'_middle (b0 ++ b1) b2 b3
  have h3 : (b0 ++ b1 ++ b2 ++ b3).extractLsb' 0 8 = b3 := BitVec.extractLsb'_append_eq_right
  rw [be32, h0, h1, h2, h3]

/-- Settles O16: each field is one part of the word's concatenation. -/
theorem enc565FieldsAreTopBits : Obligations.Enc565FieldsAreTopBits := by
  intro r g b
  rw [red5, green6, blue5, enc565_eq_append]
  exact ⟨extractLsb'_first _ _ _, extractLsb'_middle _ _ _, BitVec.extractLsb'_append_eq_right⟩

/-- The bytes of an RGB565 pixel come from its three colour channels alone (spec/40_pixel_encoders.md R94). -/
theorem encpix_rgb565 (c : Channels) (h : Bool) :
    encpix .rgb565 c h =
      [c.red.extractLsb' 3 5 ++ c.green.extractLsb' 5 3, c.green.extractLsb' 2 3 ++ c.blue.extractLsb' 3 5] := by
  rw [encpix, enc565_eq_bytes]
  exact be16_append _ _

/-- The bytes of an ARGB8888 pixel are its channels, the chosen alpha first (spec/30_encoding.md R82). -/
theorem encpix_argb8888 (c : Channels) (h : Bool) :
    encpix .argb8888 c h = [c.alphaOr255 h, c.red, c.green, c.blue] := by
  rw [encpix, enc8888_eq_append]
  exact be32_append _ _ _ _

/-- Settles O22: either kind of source gives its colour channels. -/
theorem rgb565PixelBytes : Obligations.Rgb565PixelBytes :=
  fun r g b a h => ⟨encpix_rgb565 (.rgb r g b) h, encpix_rgb565 (.rgba r g b a) h⟩

/-- Settles O23: the kind bit chooses between 255 and the source's own alpha. -/
theorem argb8888PixelBytes : Obligations.Argb8888PixelBytes :=
  fun r g b a => ⟨encpix_argb8888 (.rgb r g b) false, encpix_argb8888 (.rgba r g b a) false,
    encpix_argb8888 (.rgba r g b a) true⟩

end Sys2Proof.Machine
end

section
/-! The status word (spec/30_encoding.md R75 to R77): its three fields, and that the host cannot write it. -/

namespace Sys2Proof.Machine

theorem statusWord_state (s : State) : (statusWord s).extractLsb' 0 2 = stateBits s.convState :=
  BitVec.extractLsb'_append_eq_right

theorem statusWord_err (s : State) : (statusWord s).extractLsb' 2 2 = errBits s.errCode :=
  extractLsb'_middle _ _ _

theorem statusWord_reserved (s : State) : (statusWord s).extractLsb' 4 4 = 0#4 :=
  extractLsb'_first _ _ _

/-- R77: the code 3 is reserved. -/
theorem errBits_ne_three (e : ErrCode) : errBits e ≠ 3#2 := by cases e <;> decide

/-- R75: a host write to STATUS is ignored. -/
theorem step_writeStatus {s : State} {v : Byte} {r : List Input} (h : s.inputs = .access (.writeStatus v) :: r) :
    step s = .next { s with inputs := r } := step_access s _ r h

/-- Settles O36: the fields are STATE, ERR and zero bits, and a write of STATUS is a host access that changes no field. -/
theorem statusWordFields : Obligations.StatusWordFields := by
  intro s
  rw [statusWord_state, statusWord_err]
  refine ⟨?_, ?_, ?_, ?_, ?_, ?_, ?_, errBits_ne_three _, statusWord_reserved s, fun v r => step_writeStatus⟩
  all_goals
    intro h
    rw [h]
    rfl

end Sys2Proof.Machine
end

section
/-! The laws of the encoders (spec/40_pixel_encoders.md R96, R97, R101 to R103), from the packed words as their
fields side by side. -/

namespace Sys2Proof.Machine

/-! ## A word and its fields -/

/-- The RGB565 fields of a word make up the word (R106). -/
theorem fields565_append (v : U16) : red5 v ++ green6 v ++ blue5 v = v := by
  have htop : red5 v ++ green6 v = v.extractLsb' 5 11 := BitVec.extractLsb'_append_extractLsb'_eq_extractLsb' rfl
  rw [htop]
  exact BitVec.extractLsb'_append_extractLsb'

/-- The ARGB8888 fields of a word make up the word (R106). -/
theorem fields8888_append (v : U32) : alpha8 v ++ red8 v ++ green8 v ++ blue8 v = v := by
  have hhalf : alpha8 v ++ red8 v = v.extractLsb' 16 16 := BitVec.extractLsb'_append_extractLsb'_eq_extractLsb' rfl
  have htop : v.extractLsb' 16 16 ++ green8 v = v.extractLsb' 8 24 :=
    BitVec.extractLsb'_append_extractLsb'_eq_extractLsb' rfl
  rw [hhalf, htop]
  exact BitVec.extractLsb'_append_extractLsb'

/-- The bytes of a 32-bit word are its ARGB8888 fields, alpha first. -/
theorem be32_eq_fields (v : U32) : be32 v = [alpha8 v, red8 v, green8 v, blue8 v] := rfl

/-- Channels whose kept bits are the fields of `v` encode to `v`. -/
theorem enc565_of_fields {v : U16} {r g b : Byte} (hr : r.extractLsb' 3 5 = red5 v) (hg : g.extractLsb' 2 6 = green6 v)
    (hb : b.extractLsb' 3 5 = blue5 v) : enc565 r g b = v := by
  rw [enc565_eq_append, hr, hg, hb, fields565_append]

/-- The expansion of `v` with zeros in the low bits, one of those R102 speaks of, encodes to `v`. -/
theorem enc565_zeroFill (v : U16) : enc565 (red5 v ++ 0#3) (green6 v ++ 0#2) (blue5 v ++ 0#3) = v :=
  enc565_of_fields BitVec.extractLsb'_append_eq_left BitVec.extractLsb'_append_eq_left BitVec.extractLsb'_append_eq_left

/-! ## Packed words as sums -/

/-- The part below takes no bits of the part above, so the concatenation is a sum. -/
theorem toNat_append_eq_add {m n : Nat} (x : BitVec m) (y : BitVec n) :
    (x ++ y).toNat = x.toNat * 2 ^ n + y.toNat := by
  rw [BitVec.toNat_append, ← Nat.shiftLeft_add_eq_or_of_lt y.isLt, Nat.shiftLeft_eq]

/-- The top bits above the low `k` are the quotient by `2 ^ k`. -/
theorem toNat_topBits {w k n : Nat} (h : w = k + n) (v : BitVec w) : (v.extractLsb' k n).toNat = v.toNat / 2 ^ k := by
  have hlt : v.toNat / 2 ^ k < 2 ^ n := Nat.div_lt_of_lt_mul (by rw [← Nat.pow_add, ← h]; exact v.isLt)
  rw [BitVec.extractLsb'_toNat, Nat.shiftRight_eq_div_pow, Nat.mod_eq_of_lt hlt]

theorem toNat_enc565 (r g b : Byte) :
    (enc565 r g b).toNat = r.toNat / 8 * 2048 + g.toNat / 4 * 32 + b.toNat / 8 := by
  rw [enc565_eq_append, toNat_append_eq_add, toNat_append_eq_add, toNat_topBits rfl, toNat_topBits rfl, toNat_topBits rfl]
  omega

theorem toNat_enc8888 (a r g b : Byte) :
    (enc8888 a r g b).toNat = a.toNat * 2 ^ 24 + r.toNat * 2 ^ 16 + g.toNat * 2 ^ 8 + b.toNat := by
  rw [enc8888_eq_append, toNat_append_eq_add, toNat_append_eq_add, toNat_append_eq_add]
  omega

/-- Settles O20: each sum is the value of a word of the stated width, and the zero-fill expansion reaches every word. -/
theorem encodersDoNotOverflow : Obligations.EncodersDoNotOverflow := by
  refine ⟨fun r g b => ⟨toNat_enc565 r g b, ?_⟩, fun a r g b => ⟨toNat_enc8888 a r g b, ?_⟩,
    fun v => ⟨_, _, _, enc565_zeroFill v⟩⟩
  · rw [← toNat_enc565]
    exact Nat.le_sub_one_of_lt (enc565 r g b).isLt
  · rw [← toNat_enc8888]
    exact Nat.le_sub_one_of_lt (enc8888 a r g b).isLt

/-! ## The masked form -/

/-- Shifted down and back up by the same amount, `v` stays within its width, so widening may come before or after. -/
theorem zeroExtend_ushiftRight_shiftLeft {w : Nat} (v : BitVec w) (k n : Nat) :
    (v >>> k).zeroExtend n <<< k = (v >>> k <<< k).zeroExtend n := by
  ext i hi
  rw [BitVec.getElem_shiftLeft, BitVec.getElem_setWidth, BitVec.getElem_setWidth, BitVec.getLsbD_shiftLeft]
  by_cases h : i < w
  · rw [decide_eq_true h, Bool.true_and]
  · rw [BitVec.getLsbD_ushiftRight, BitVec.getLsbD_of_ge v (k + (i - k)) (by omega), Bool.and_false, Bool.and_false]

/-- R96: shifting the low `k` bits out and the rest up is masking the low `k` bits and shifting up `k` less. -/
theorem ushiftRight_shiftLeft_eq_masked {w : Nat} (v : BitVec w) (k m n : Nat) :
    (v >>> k).zeroExtend n <<< (k + m) = (v &&& BitVec.allOnes w <<< k).zeroExtend n <<< m := by
  rw [BitVec.shiftLeft_add, zeroExtend_ushiftRight_shiftLeft, BitVec.shiftLeft_ushiftRight]

/-- Settles O17: the masks 0xF8 and 0xFC clear the low three and the low two bits. -/
theorem enc565MaskedForm : Obligations.Enc565MaskedForm := by
  intro r g b
  have hr := ushiftRight_shiftLeft_eq_masked r 3 8 16
  have hg := ushiftRight_shiftLeft_eq_masked g 2 3 16
  rw [enc565, hr, hg]
  rfl

/-! ## What the encoders keep -/

/-- Settles O18: the word is the kept bits side by side. -/
theorem enc565DependsOnKeptBits : Obligations.Enc565DependsOnKeptBits := by
  intro r1 g1 b1 r2 g2 b2 hr hg hb
  rw [enc565_eq_append, enc565_eq_append, hr, hg, hb]

/-- Settles O19: the low bits are not kept, and the fields make up the word. -/
theorem enc565RequantizesToItself : Obligations.Enc565RequantizesToItself :=
  fun _ _ _ _ => enc565_of_fields

/-- Settles O21: the serializer reads the channels back, and the fields of a word make up the word. -/
theorem enc8888IsLossless : Obligations.Enc8888IsLossless := by
  refine ⟨fun a r g b => ?_, fun v => ?_⟩
  · have h := be32_append a r g b
    rw [← enc8888_eq_append, be32_eq_fields] at h
    simpa only [List.cons.injEq, and_true] using h
  · rw [enc8888_eq_append, fields8888_append]

end Sys2Proof.Machine
end

section
/-! The reference function (spec/41_raster_serializer.md R115 to R124): the serializers, the raster order, and `pack` by its three
outcomes. -/

namespace Sys2Proof.Machine

/-! ## The serializers -/

/-- Settles O24: the bytes of a word are its parts side by side, so its value is their sum by place. -/
theorem serializersAreBigEndian : Obligations.SerializersAreBigEndian := by
  refine ⟨fun v => ⟨_, _, rfl, ?_⟩, fun v => ⟨_, _, _, _, be32_eq_fields v, ?_⟩⟩
  · rw [← toNat_append_eq_add, BitVec.extractLsb'_append_extractLsb']
  · conv_lhs => rw [← fields8888_append v]
    simp only [toNat_append_eq_add]
    omega

/-! ## The raster order -/

/-- Settles O25: the pixel `(x, y)` is the element at its linear index. -/
theorem rasterOrderIsRowMajor : Obligations.RasterOrderIsRowMajor := by
  refine fun w h => ⟨rasterOrder_length w h, rasterOrder_getElem w h, fun x y hx hy => ?_⟩
  obtain ⟨hmod, hdiv⟩ := linear_split y hx
  exact ⟨by rw [rasterOrder_getElem w h _ (linear_lt hx hy), hmod, hdiv], hmod, hdiv⟩

/-! ## The outcomes of `pack` (R120) -/

theorem pack_unsupported (lenMax : Nat) (src : Source) {c : Byte} (hf : formatOfTag c = none) :
    pack lenMax src c = .error .unsupportedFormat := by
  rw [pack, hf]

theorem pack_oversized {lenMax : Nat} {src : Source} {c : Byte} {f : OutputFormat} (hf : formatOfTag c = some f)
    (hn : lenMax < conversionLength src.width src.height f) : pack lenMax src c = .error .invalidDimensions := by
  rw [pack, hf]
  exact if_pos hn

theorem pack_fits {lenMax : Nat} {src : Source} {c : Byte} {f : OutputFormat} (hf : formatOfTag c = some f)
    (hn : conversionLength src.width src.height f ≤ lenMax) : pack lenMax src c = .ok (packBytes f src) := by
  rw [pack, hf]
  exact if_neg (Nat.not_lt.2 hn)

/-- What a successful `pack` with a defined tag gives. -/
theorem eq_packBytes_of_pack {lenMax : Nat} {src : Source} {c : Byte} {f : OutputFormat} {bytes : List Byte}
    (hf : formatOfTag c = some f) (h : pack lenMax src c = .ok bytes) : bytes = packBytes f src := by
  by_cases hn : lenMax < conversionLength src.width src.height f
  · rw [pack_oversized hf hn] at h
    cases h
  · rw [pack_fits hf (Nat.not_lt.1 hn)] at h
    cases h
    rfl

/-- R121, for the format of the tag. -/
theorem pack_length {lenMax : Nat} {src : Source} {c : Byte} {f : OutputFormat} {bytes : List Byte}
    (hf : formatOfTag c = some f) (h : pack lenMax src c = .ok bytes) :
    bytes.length = src.width.toNat * src.height.toNat * bpp f := by
  rw [eq_packBytes_of_pack hf h, packBytes_length, conversionLength]

/-- Settles O26: the length by format, at the two defined tags. -/
theorem packLengthIsExact : Obligations.PackLengthIsExact :=
  fun _ _ _ => ⟨pack_length formatOfTag_zero, pack_length formatOfTag_one⟩

/-- Settles O28: the linear index of `(x, y)` gives its coordinate back. -/
theorem packBytesByOffset : Obligations.PackBytesByOffset := by
  intro lenMax src c f bytes hf h x y k hx hy hk
  obtain ⟨hmod, hdiv⟩ := linear_split y hx
  rw [eq_packBytes_of_pack hf h, packBytes_getElem f src _ k (linear_lt hx hy) hk, hmod, hdiv]

theorem conversionLength_zero_area {src : Source} (h : src.width = 0#32 ∨ src.height = 0#32) (f : OutputFormat) :
    conversionLength src.width src.height f = 0 := by
  rw [conversionLength_eq_zero_iff, Nat.mul_eq_zero]
  exact h.imp (congrArg BitVec.toNat) (congrArg BitVec.toNat)

theorem packBytes_eq_nil {f : OutputFormat} {src : Source} (h : conversionLength src.width src.height f = 0) :
    packBytes f src = [] :=
  List.length_eq_zero_iff.1 ((packBytes_length f src).trans h)

/-- Settles O27: the length of an empty grid is 0 and fits any bound; a reserved tag has no format. -/
theorem zeroAreaPacksToNothing : Obligations.ZeroAreaPacksToNothing := by
  refine fun lenMax src harea c => ⟨fun hc => ?_, fun hc => pack_unsupported lenMax src (formatOfTag_eq_none c hc)⟩
  obtain ⟨i, rfl⟩ | hreserved := eq_encode_or_reserved c
  · have h0 := conversionLength_zero_area harea (formatOf i)
    rw [pack_fits (formatOfTag_encode i) (h0.le.trans (Nat.zero_le lenMax)), packBytes_eq_nil h0]
  · omega

end Sys2Proof.Machine
end

section
/-! START (spec/41_raster_serializer.md R139 to R142): what each of its outcomes writes, and that it accepts exactly the sources
that `pack` packs. -/

namespace Sys2Proof.Machine

/-! ## Acceptance -/

/-- What an accepted command writes, and that it writes nothing else. -/
theorem exec_accepted (i : Instr) (s : State) (hc : s.cfg.wf = true) (hs : s.convState ≠ .busy)
    (hn : s.src.width.toNat * s.src.height.toNat * bpp (formatOf i) ≤ s.cfg.lenMax) :
    ∃ (p : Pending) (n : U64), n.toNat = s.src.width.toNat * s.src.height.toNat * bpp (formatOf i) ∧
      (∀ j, Pending.has j p = true ↔ j < s.src.width.toNat * s.src.height.toNat) ∧
      exec i s =
        .next { s with
          fmtR := encode i, wR := s.src.width, hR := s.src.height, aR := s.src.hasAlpha
          len := n, errCode := .none, x := 0#32, y := 0#32, pend := p
          convState := if s.src.width.toNat * s.src.height.toNat * bpp (formatOf i) = 0 then .done else .busy
          outOld := s.out, view := s.src, late := [], doneRead := false } := by
  refine ⟨Pending.full (s.src.width.toNat * s.src.height.toNat), _, accepted_len_toNat hc hn, fun j => ?_, ?_⟩
  · rw [Pending.has_full, decide_eq_true_iff]
  · rw [exec_eq_start, start_accepted (encode i) s (formatOf i) hs (formatOfTag_encode i) hn]
    rfl

/-- Settles O5: an accepted command with two bytes a pixel. -/
theorem packRgb565Accepted : Obligations.PackRgb565Accepted := exec_accepted .packRgb565

/-- Settles O6: an accepted command with four bytes a pixel. -/
theorem packArgb8888Accepted : Obligations.PackArgb8888Accepted := exec_accepted .packArgb8888

/-! ## The length check -/

/-- The largest grid has below `2 ^ 64` pixels of at most four bytes (R140). -/
theorem conversionLength_lt (w h : U32) (f : OutputFormat) : conversionLength w h f < 2 ^ 66 := by
  have hgrid : w.toNat * h.toNat < 2 ^ 32 * 2 ^ 32 := Nat.mul_lt_mul'' w.isLt h.isLt
  calc w.toNat * h.toNat * bpp f ≤ w.toNat * h.toNat * 4 := Nat.mul_le_mul_left _ (bpp_le f)
    _ < 2 ^ 66 := by omega

/-- Settles O10: above LEN_MAX the command raises the error, and otherwise it is accepted with the exact length. -/
theorem lengthCheckIsExact : Obligations.LengthCheckIsExact := by
  intro i s hc hs
  have hbound := conversionLength_lt s.src.width s.src.height (formatOf i)
  rw [exec_eq_start]
  by_cases hn : s.cfg.lenMax < conversionLength s.src.width s.src.height (formatOf i)
  · exact ⟨_, start_invalid _ s _ hs (formatOfTag_encode i) hn, ⟨fun _ => hn, fun _ => rfl⟩, fun h => absurd rfl h, hbound⟩
  · have hle := Nat.not_lt.1 hn
    refine ⟨_, start_accepted _ s _ hs (formatOfTag_encode i) hle, ⟨fun h => ?_, fun h => absurd h hn⟩, fun _ => ?_, hbound⟩
    · cases h
    · exact accepted_len_toNat hc hle

/-- Settles O29: START and `pack` make the same two checks in the same order. -/
theorem startAgreesWithPack : Obligations.StartAgreesWithPack := by
  intro c s hc hs
  rw [writeCmd_eq_start]
  cases hf : formatOfTag c with
  | none =>
    rw [pack_unsupported s.cfg.lenMax s.src hf]
    refine ⟨_, start_unsupported c s hs hf, fun e he => ?_, fun bytes hb => ?_⟩
    · cases he
      exact ⟨rfl, rfl⟩
    · cases hb
  | some f =>
    by_cases hn : s.cfg.lenMax < conversionLength s.src.width s.src.height f
    · rw [pack_oversized hf hn]
      refine ⟨_, start_invalid c s f hs hf hn, fun e he => ?_, fun bytes hb => ?_⟩
      · cases he
        exact ⟨rfl, rfl⟩
      · cases hb
    · have hle := Nat.not_lt.1 hn
      rw [pack_fits hf hle]
      refine ⟨_, start_accepted c s f hs hf hle, fun e he => ?_, fun bytes hb => ?_⟩
      · cases he
      · cases hb
        rw [packBytes_length]
        exact ⟨rfl, accepted_len_toNat hc hle, rfl⟩

/-! ## The frame -/

/-- Settles O7: none of START's outcomes writes any of these. -/
theorem startWritesNoByteOfOut : Obligations.StartWritesNoByteOfOut := by
  intro c s t h
  rw [writeCmd_eq_start] at h
  obtain ⟨_, ⟨_, rfl⟩ | ⟨f, _, ⟨_, rfl⟩ | ⟨_, rfl⟩⟩⟩ := start_next_cases c s t h <;>
    exact ⟨fun _ => rfl, rfl, rfl, rfl, rfl, rfl, rfl, rfl⟩

end Sys2Proof.Machine
end

section
/-! The pixel step (spec/41_raster_serializer.md R133 to R136, R147): the cursor, the last pixel, and what a step writes under either
issue order. -/

namespace Sys2Proof.Machine

/-! ## The cursor -/

/-- The pixel under a cursor, by its linear index (spec/10_state.md R30). -/
theorem latchedPixel_linear {x : Nat} (y : Nat) {s : State} (hx : x < s.wR.toNat) :
    latchedPixel (y * s.wR.toNat + x) s = asChannels s.aR (s.view.stored x y) := by
  obtain ⟨hmod, hdiv⟩ := linear_split y hx
  rw [latchedPixel, hmod, hdiv]

/-- A register below another one does not wrap when it is incremented. -/
theorem toNat_succ_of_lt {v w : U32} (h : v.toNat < w.toNat) : (v + 1#32).toNat = v.toNat + 1 := by
  have hw := w.isLt
  exact BitVec.toNat_add_of_lt (y := 1#32) (by simp; omega)

/-- R134: ADVANCE in numbers, at a cursor inside the grid. -/
theorem cursor_moves {x y cx cy w h : U32} (hx : x.toNat < w.toNat) (hy : y.toNat < h.toNat)
    (hcur : (x.toNat + 1 < w.toNat ∧ cx = x + 1#32 ∧ cy = y) ∨ (w.toNat ≤ x.toNat + 1 ∧ cx = 0#32 ∧ cy = y + 1#32)) :
    (x.toNat + 1 < w.toNat → cx.toNat = x.toNat + 1 ∧ cy = y) ∧
      (w.toNat ≤ x.toNat + 1 → cx = 0#32 ∧ cy.toNat = y.toNat + 1) := by
  obtain ⟨hrow, rfl, rfl⟩ | ⟨hwrap, rfl, rfl⟩ := hcur
  · exact ⟨fun _ => ⟨toNat_succ_of_lt hx, rfl⟩, fun hle => by omega⟩
  · exact ⟨fun hlt => by omega, fun _ => ⟨rfl, toNat_succ_of_lt hy⟩⟩

/-- The pixel with no successor in the scan is the last of the last row. -/
theorem last_pixel_iff {x y w h : Nat} (hx : x < w) (hy : y < h) :
    ¬ y * w + x + 1 < w * h ↔ x + 1 = w ∧ y + 1 = h := by
  constructor
  · intro hlast
    have hrow : y + 1 = h := by
      by_contra hne
      have hnext := linear_lt (x := 0) (w := w) (by omega) (show y + 1 < h by omega)
      rw [Nat.add_mul] at hnext
      omega
    subst hrow
    rw [Nat.mul_add_one, Nat.mul_comm w] at hlast
    omega
  · rintro ⟨rfl, rfl⟩
    rw [Nat.mul_add_one (x + 1), Nat.mul_comm y]
    omega

/-- R136 under RowMajor: the pixel under the cursor is the only one pending exactly where it is the last of the last row. -/
theorem BusyInv.remove_eq_nil_iff {s : State} (h : BusyInv s) (ho : s.cfg.issueOrder = .rowMajor) :
    Pending.remove (s.y.toNat * s.wR.toNat + s.x.toNat) s.pend = [] ↔
      s.x.toNat + 1 = s.wR.toNat ∧ s.y.toNat + 1 = s.hR.toNat := by
  obtain ⟨hx, hy, hpend⟩ := h.cursor ho
  rw [hpend, Pending.remove_first _ _ (linear_lt hx hy), ← last_pixel_iff hx hy]
  split_ifs with hnext <;> simp [hnext]

/-! ## RowMajor -/

theorem pixelStep_rowMajor {s : State} (h : s.cfg.issueOrder = .rowMajor) : pixelStep s = pixelStepRowMajor s := by
  rw [pixelStep, h]

/-- Settles O30: `pixelStepRowMajor_spec`, its cursor in numbers and its pixel by coordinates. -/
theorem pixelStepRowMajorEffect : Obligations.PixelStepRowMajorEffect := by
  intro s hi hs ho
  have hb := hi.busy hs
  obtain ⟨hx, hy, _⟩ := hb.cursor ho
  obtain ⟨f, m, l, cx, cy, hf, he, hw, hcur⟩ := pixelStepRowMajor_spec s hb hs ho
  obtain ⟨hrow, hwrap⟩ := cursor_moves hx hy hcur
  rw [latchedPixel_linear s.y.toNat hx] at he hw
  refine ⟨f, _, _, hf, rfl, (pixelStep_rowMajor ho).trans he, rfl, ?_, ?_, hrow, hwrap, fun j => Pending.has_remove _ j _,
    hw.own, hw.lateOwn, fun a ha => ⟨hw.other a ha, hw.lateRest a ha⟩⟩
  · rintro rfl
    rfl
  · rintro rfl
    rfl

/-- Settles O32: the step's cursor in numbers; DONE means that the pixel was the last of the last row. -/
theorem advanceMovesTheCursor : Obligations.AdvanceMovesTheCursor := by
  intro s hi hs ho
  have hb := hi.busy hs
  obtain ⟨hx, hy, _⟩ := hb.cursor ho
  obtain ⟨f, m, l, cx, cy, _, he, _, hcur⟩ := pixelStepRowMajor_spec s hb hs ho
  obtain ⟨hrow, hwrap⟩ := cursor_moves hx hy hcur
  have hwR := s.wR.isLt
  have hhR := s.hR.isLt
  refine ⟨_, (pixelStep_rowMajor ho).trans he, hrow, fun h => hwrap (Nat.not_lt.1 h), by omega, by omega, fun hd => ?_⟩
  obtain ⟨hlastx, hlasty⟩ := (hb.remove_eq_nil_iff ho).1 (by simpa using hd)
  obtain ⟨hcx, hcy⟩ := hwrap hlastx.ge
  exact ⟨hcx, BitVec.eq_of_toNat_eq (hcy.trans hlasty)⟩

/-! ## Any -/

/-- Under `Any` the machine's own step takes one of the pending pixels (R133). -/
theorem Inv.pixelStep_any {s : State} (h : Machine.Inv s) (hs : s.convState = .busy) (ho : s.cfg.issueOrder = .any) :
    ∃ j, Pending.has j s.pend = true ∧ pixelStep s = pixelStepChoosing j s := by
  obtain ⟨j, hc, hj⟩ := chosenIndex_spec s h.pendForm (h.busy hs).nonempty
  exact ⟨j, hj, by simp only [pixelStep, ho, hc]⟩

/-- Settles O31: `pixelStepChoosing_spec` for the choice given. -/
theorem pixelStepChoosingEffect : Obligations.PixelStepChoosingEffect := by
  intro s i hi hs hpend
  obtain ⟨f, m, l, hf, he, hw⟩ := pixelStepChoosing_spec i s (hi.busy hs) hs hpend
  refine ⟨f, _, latchedPixel i s, hf, rfl, he, rfl, ?_, ?_, fun j => Pending.has_remove _ j _,
    hw.own, hw.lateOwn, fun a ha => ⟨hw.other a ha, hw.lateRest a ha⟩, hi.pixelStep_any hs⟩
  · rintro rfl
    rfl
  · rintro rfl
    rfl

/-! ## The two issue orders compared (R135) -/

theorem advance_eq_withCursor (s : State) : ∃ x y, advance s = s.withCursor x y := by
  by_cases hrow : s.x.toNat + 1 < s.wR.toNat
  · exact ⟨_, _, advance_row s hrow⟩
  · exact ⟨_, _, advance_wrap s (Nat.not_lt.1 hrow)⟩

/-- Completion does not depend on the cursor or on the draw counter. -/
theorem completeIfEmpty_withCursor_withDraws (s : State) (x y : U32) (d : Nat) :
    completeIfEmpty ((s.withCursor x y).withDraws d) = ((completeIfEmpty s).withCursor x y).withDraws d := by
  by_cases hpend : s.pend = []
  · rw [completeIfEmpty_empty s hpend]
    exact completeIfEmpty_empty _ hpend
  · rw [completeIfEmpty_pending s hpend]
    exact completeIfEmpty_pending _ hpend

/-- What ADVANCE leaves differs from what the step under `Any` leaves in the cursor and the draw counter only. -/
theorem completeIfEmpty_freeCursor (s : State) :
    completeIfEmpty (freeCursor s) =
      { completeIfEmpty (advance s) with
        x := (completeIfEmpty (freeCursor s)).x, y := (completeIfEmpty (freeCursor s)).y
        draws := (completeIfEmpty (freeCursor s)).draws } := by
  obtain ⟨cx, cy, hadvance⟩ := advance_eq_withCursor s
  have hrow : completeIfEmpty (s.withCursor cx cy) = ((completeIfEmpty s).withCursor cx cy).withDraws s.draws :=
    completeIfEmpty_withCursor_withDraws s cx cy s.draws
  have hany : completeIfEmpty (freeCursor s) = _ := completeIfEmpty_withCursor_withDraws s _ _ _
  rw [hadvance, hrow, hany]
  rfl

theorem BusyInv.least_pend {s : State} (h : BusyInv s) (ho : s.cfg.issueOrder = .rowMajor) :
    Pending.least s.pend = some (s.y.toNat * s.wR.toNat + s.x.toNat) := by
  obtain ⟨_, _, hpend⟩ := h.cursor ho
  rw [hpend]
  rfl

/-- The pixel under the cursor is processed without a stop. -/
theorem BusyInv.processPixel_cursor {s : State} (h : BusyInv s) (ho : s.cfg.issueOrder = .rowMajor) :
    ∃ u, processPixel s.x.toNat s.y.toNat s = .next u := by
  obtain ⟨hx, hy, _⟩ := h.cursor ho
  obtain ⟨f, hf, _⟩ := h.format
  obtain ⟨_, _, _, hfits⟩ := h.pixel_fits hf (linear_lt hx hy)
  obtain ⟨m, l, hp, _⟩ := processPixel_spec _ _ s f hx hy hf hfits
  exact ⟨_, hp⟩

/-- Settles O34: both steps process the pixel under the cursor, and then move the cursor each in its own way. -/
theorem rowMajorTakesTheLeastPending : Obligations.RowMajorTakesTheLeastPending := by
  intro s hi hs ho
  have hb := hi.busy hs
  obtain ⟨hx, _, _⟩ := hb.cursor ho
  obtain ⟨hmod, hdiv⟩ := linear_split s.y.toNat hx
  have hleast := hb.least_pend ho
  obtain ⟨hhas, hmin⟩ := Pending.least_spec _ hi.pendForm _ hleast
  obtain ⟨u, hu⟩ := hb.processPixel_cursor ho
  refine ⟨hleast, hmin, completeIfEmpty (advance u), completeIfEmpty (freeCursor u), ?_, ?_, completeIfEmpty_freeCursor u⟩
  · rw [pixelStep_rowMajor ho, pixelStepRowMajor, hu]
    rfl
  · rw [pixelStepChoosing_has _ s hhas, hmod, hdiv, hu]
    rfl

/-! ## A turn of the block -/

theorem done_or_busy_eq_done (p : Prop) [Decidable p] : (if p then ConvState.done else .busy) = .done ↔ p := by simp

theorem done_or_busy_eq_busy (p : Prop) [Decidable p] : (if p then ConvState.done else .busy) = .busy ↔ ¬ p := by simp

/-- ERR is 0 outside ERROR (spec/10_state.md R28). -/
theorem Inv.errCode_none {s : State} (h : Machine.Inv s) (hs : s.convState ≠ .error) : s.errCode = .none :=
  not_not.1 (h.errCode.not.2 hs)

/-- Settles O33: the turn takes one pending pixel, under RowMajor the one under the cursor. -/
theorem lastPixelCompletes : Obligations.LastPixelCompletes := by
  intro s hi hs
  obtain ⟨i, f, m, l, cx, cy, d, hpend, _, he, _, hcur⟩ := hi.blockTurn_busy hs
  refine ⟨_, he, done_or_busy_eq_done _, done_or_busy_eq_busy _, rfl, hi.errCode_none (by simp [hs]),
    Pending.count_remove i s.pend hi.pendForm hpend, fun ho => ?_⟩
  obtain ⟨rfl, _⟩ := hcur ho
  exact (done_or_busy_eq_done _).trans ((hi.busy hs).remove_eq_nil_iff ho)

/-- Settles O35: outside BUSY the turn is empty, and while BUSY it is a pixel step. -/
theorem blockTurnNeverFails : Obligations.BlockTurnNeverFails := by
  refine fun s hi => ⟨blockTurn_quiescent s, fun hs => ?_⟩
  obtain ⟨i, f, m, l, cx, cy, d, _, _, he, _, _⟩ := hi.blockTurn_busy hs
  refine ⟨_, he, rfl, ?_⟩
  by_cases hrest : Pending.remove i s.pend = []
  · exact .inr (if_pos hrest)
  · exact .inl (if_neg hrest)

end Sys2Proof.Machine
end

section
/-! The register reads (spec/41_raster_serializer.md R143, R144), and that outside BUSY only a CMD write or a reset changes a
register (R147, spec/60_exceptions.md R169). -/

namespace Sys2Proof.Machine

/-- Settles O37: the read is a host access that changes only what the model notes. -/
theorem readStatusReturnsStatus : Obligations.ReadStatusReturnsStatus :=
  fun s rest hin => step_access s .readStatus rest hin

/-- Settles O38: the read is a host access that only notes LEN, and while BUSY the invariant gives LEN. -/
theorem readLenReturnsLen : Obligations.ReadLenReturnsLen :=
  fun s rest hi hin => ⟨step_access s .readLen rest hin, fun hs => (hi.busy hs).format⟩

/-- Settles O52: a quiescent block takes no step, and a host access writes no register. -/
theorem onlyCommandOrResetLeavesQuiescence : Obligations.OnlyCommandOrResetLeavesQuiescence := by
  intro s t hs hcommand hreset h
  obtain ⟨r, _, hb | ⟨a, _, ha⟩ | ⟨hin, _⟩ | ⟨c, hin, _⟩⟩ := step_next_cases h
  · rw [blockTurn_quiescent (s.withInputs r) hs] at hb
    injection hb with hb
    subst hb
    exact ⟨rfl, rfl, rfl, rfl, rfl, rfl, rfl, rfl, rfl, rfl, rfl, rfl⟩
  · obtain ⟨_, _, _, _, _, _, _, _, rfl⟩ := hostAccess_next a _ t ha
    exact ⟨rfl, rfl, rfl, rfl, rfl, rfl, rfl, rfl, rfl, rfl, rfl, rfl⟩
  · exact absurd hin (hreset r)
  · exact absurd hin (hcommand c r)

end Sys2Proof.Machine
end

section
/-! Whole conversions (spec/41_raster_serializer.md R133, R137, R138): a run of the block's turns and a run of choices, one pixel at
a time, down to DONE with `pack` in OUT. -/

namespace Sys2Proof.Machine

/-! ## STATE and the pixels still to come -/

theorem Converting.done_iff {s : State} (h : Converting s) : s.convState = .done ↔ Pending.count s.pend = 0 := by
  rw [h]
  exact done_or_busy_eq_done _

theorem Converting.busy_iff {s : State} (h : Converting s) : s.convState = .busy ↔ Pending.count s.pend ≠ 0 := by
  rw [h]
  exact done_or_busy_eq_busy _

theorem Inv.converting_of_busy {s : State} (h : Machine.Inv s) (hs : s.convState = .busy) : Converting s := by
  have hcount := (Pending.eq_nil_iff_count s.pend h.pendForm).not.1 (h.busy hs).nonempty
  rw [Converting, if_neg hcount, hs]

/-! ## A run of the block's turns -/

/-- After `k` turns of the block, `k` pixels have been taken and no byte at LEN or above has changed. -/
theorem CleanInv.run_turns {k : Nat} {s : State} (h : CleanInv s) (hin : s.inputs = []) (hs : Converting s)
    (hk : k ≤ Pending.count s.pend) :
    ∃ t, Host.Core.run Sys2Proof.core k s = .next t ∧ CleanInv t ∧ SameConversion s t ∧ Converting t ∧
      Pending.count t.pend + k = Pending.count s.pend ∧
      ∀ a, s.len.toNat ≤ a → Memory.read t.out a = Memory.read s.out a := by
  induction k generalizing s with
  | zero => exact ⟨s, run_zero s, h, .refl s, hs, rfl, fun _ _ => rfl⟩
  | succ k ih =>
    have hbusy := hs.busy_iff.2 (by omega)
    obtain ⟨u, hu, hclean, hsame, hin', hconv, hcount⟩ := h.blockTurn_busy hbusy
    obtain ⟨t, ht, hclean', hsame', hconv', hcount', habove⟩ := ih hclean (hin'.trans hin) hconv (by omega)
    refine ⟨t, (run_next k s u ((step_nil s hin).trans hu)).trans ht, hclean', hsame.trans hsame', hconv', by omega,
      fun a ha => ?_⟩
    rw [habove a (by rwa [hsame.len]), h.inv.blockTurn_read_above_len hu ha]

/-- An accepted command leaves the conversion of SRC to come: every pixel of it is pending, and OUT is untouched. -/
theorem Inv.step_accepted {s : State} (h : Machine.Inv s) (hs : s.convState ≠ .busy) {i : Instr}
    (hin : s.inputs = [.command (encode i)])
    (hn : conversionLength s.src.width s.src.height (formatOf i) ≤ s.cfg.lenMax) :
    ∃ u, step s = .next u ∧ CleanInv u ∧ Converting u ∧ u.inputs = [] ∧
      Pending.count u.pend = s.src.width.toNat * s.src.height.toNat ∧
      u.cfg = s.cfg ∧ u.fmtR = encode i ∧ latchedSource u = s.src ∧ u.out = s.out := by
  have hi : Machine.Inv (s.withInputs []) := h.withInputs [] (by simp)
  have hf := formatOfTag_encode i
  have hstart := start_accepted (encode i) (s.withInputs []) (formatOf i) hs hf hn
  exact ⟨_, (step_command s (encode i) [] hin).trans hstart, hi.cleanInv_withAccepted hf hn,
    converting_withAccepted _ _ _, rfl, Pending.count_full _, rfl, rfl, rfl, rfl⟩

/-- Settles O56: START leaves every pixel pending, each turn takes one, and DONE shows `pack`. -/
theorem conversionEqualsPack : Obligations.ConversionEqualsPack := by
  intro i s h hs hin hn
  obtain ⟨u, hu, hclean, hconv, hin', hcount, hcfg, hfmt, hsrc, hout⟩ := h.step_accepted hs hin hn
  refine ⟨fun k hk => ?_, ?_⟩
  · obtain ⟨v, hv, _, _, hconv', hleft, _⟩ := hclean.run_turns hin' hconv (hk.le.trans hcount.ge)
    rw [Nat.add_comm]
    exact ⟨v, (run_next k s u hu).trans hv, hconv'.busy_iff.2 (by omega)⟩
  · obtain ⟨t, ht, hclean', hsame, hconv', hleft, habove⟩ := hclean.run_turns hin' hconv hcount.ge
    have hd : t.convState = .done := hconv'.done_iff.2 (by omega)
    obtain ⟨bytes, hpack, hlen, hslice⟩ := doneOutputEqualsPack t hclean' hd
    rw [hsame.cfg, hsame.fmtR, hsame.latchedSource, hcfg, hfmt, hsrc] at hpack
    rw [Nat.add_comm]
    refine ⟨t, bytes, (run_next _ s u hu).trans ht, hpack, hd, hclean'.inv.errCode_none (by simp [hd]),
      hlen.trans (pack_length (formatOfTag_encode i) hpack), hslice, fun a ha => ?_⟩
    rw [habove a (by rwa [← hsame.len]), hout]

/-! ## A run of choices -/

/-- Under `Any`, the step of a pending pixel takes that pixel and is never stopped. -/
theorem CleanInv.pixelStepChoosing {s : State} (h : CleanInv s) (hs : Converting s) (ho : s.cfg.issueOrder = .any)
    {i : Nat} (hi : Pending.has i s.pend = true) :
    ∃ t, pixelStepChoosing i s = .next t ∧ CleanInv t ∧ SameConversion s t ∧ Converting t ∧
      t.pend = Pending.remove i s.pend := by
  obtain ⟨hinv, hbytes⟩ := (cleanInv_iff s).1 h
  have hbusy : s.convState = .busy := hs.busy_iff.2 fun h0 => by
    rw [(Pending.eq_nil_iff_count _ hinv.pendForm).2 h0] at hi
    cases hi
  obtain ⟨f, m, l, hf, he, hw⟩ := pixelStepChoosing_spec i s (hinv.busy hbusy) hbusy hi
  have hcur : TakesUnderCursor i (Config.freeCursorX s.draws) (Config.freeCursorY s.draws) s := fun hrow => by
    rw [ho] at hrow
    cases hrow
  have hclean := (cleanInv_iff _).2 ⟨hinv.steppedPixel hbusy hf hw hcur, hbytes.steppedPixel hbusy hf hw _ _ (s.draws + 1)⟩
  have hwf := Pending.wf_remove i s.pend hinv.pendForm
  exact ⟨_, he, hclean, ⟨rfl, rfl, rfl, rfl, rfl, rfl, rfl, rfl⟩,
    if_congr (Pending.eq_nil_iff_count _ hwf) rfl rfl, rfl⟩

/-- Pending pixels, each listed once, can be taken in the order of the list (R133). -/
theorem CleanInv.runChoices_pending {s : State} (h : CleanInv s) (hs : Converting s) (ho : s.cfg.issueOrder = .any)
    {cs : List Nat} (hnodup : cs.Nodup) (hpend : ∀ i ∈ cs, Pending.has i s.pend = true) :
    ∃ t, runChoices cs s = .next t := by
  induction cs generalizing s with
  | nil => exact ⟨s, rfl⟩
  | cons i cs ih =>
    obtain ⟨hi, hrest⟩ := List.forall_mem_cons.1 hpend
    obtain ⟨hnotin, hnodup⟩ := List.nodup_cons.1 hnodup
    obtain ⟨u, hu, hclean, hsame, hconv, hremove⟩ := h.pixelStepChoosing hs ho hi
    obtain ⟨t, ht⟩ := ih hclean hconv (by rw [hsame.cfg, ho]) hnodup fun j hj => by
      rw [hremove, Pending.has_remove, hrest j hj]
      simpa using fun hji : j = i => hnotin (hji ▸ hj)
    exact ⟨t, by rw [runChoices, hu]; exact ht⟩

/-- A run of choices that answers a next state has taken one pending pixel each. -/
theorem CleanInv.runChoices_next {s t : State} (h : CleanInv s) (hs : Converting s) (ho : s.cfg.issueOrder = .any)
    {cs : List Nat} (ht : runChoices cs s = .next t) :
    CleanInv t ∧ SameConversion s t ∧ Converting t ∧ Pending.count t.pend + cs.length = Pending.count s.pend := by
  induction cs generalizing s with
  | nil =>
    cases ht
    exact ⟨h, .refl _, hs, rfl⟩
  | cons i cs ih =>
    rw [runChoices] at ht
    by_cases hi : Pending.has i s.pend = true
    · obtain ⟨u, hu, hclean, hsame, hconv, hremove⟩ := h.pixelStepChoosing hs ho hi
      rw [hu] at ht
      obtain ⟨hclean', hsame', hconv', hcount⟩ := ih hclean hconv (by rw [hsame.cfg, ho]) ht
      have hone := Pending.count_remove i s.pend h.inv.pendForm hi
      rw [hremove] at hcount
      exact ⟨hclean', hsame.trans hsame', hconv', by rw [List.length_cons]; omega⟩
    · rw [pixelStepChoosing_not_has i s hi] at ht
      cases ht

/-- Settles O57: a run of choices takes one pixel each, and DONE shows `pack` of the source START latched. -/
theorem everyScheduleEndsInPack : Obligations.EveryScheduleEndsInPack := by
  intro s h hs ho
  have hconv := h.inv.converting_of_busy hs
  refine ⟨fun cs => h.runChoices_pending hconv ho, fun cs t ht => ?_⟩
  obtain ⟨hclean, hsame, hconv', hcount⟩ := h.runChoices_next hconv ho ht
  refine ⟨hcount, hconv'.done_iff.trans (by omega), fun hd => ?_⟩
  obtain ⟨bytes, hpack, _, hslice⟩ := doneOutputEqualsPack t hclean hd
  rw [hsame.cfg, hsame.fmtR, hsame.latchedSource] at hpack
  exact ⟨bytes, hpack, hsame.len, hslice⟩

end Sys2Proof.Machine
end

section
/-! The exceptions (spec/60_exceptions.md): the two error entries of START and their order, the START tried again, and the two stops of
the machine. -/

namespace Sys2Proof.Machine

/-! ## The two error entries -/

/-- Settles O8: a reserved tag has no format, so the tag check fails. -/
theorem reservedTagRaisesUnsupportedFormat : Obligations.ReservedTagRaisesUnsupportedFormat := by
  intro s c hc hs
  rw [writeCmd_eq_start, start_unsupported c s hs (formatOfTag_eq_none c hc)]
  rfl

/-- Settles O9: a command's tag has a format, so the length check is the one that fails. -/
theorem oversizedSourceRaisesInvalidDimensions : Obligations.OversizedSourceRaisesInvalidDimensions := by
  intro i s hs hn
  rw [exec_eq_start, start_invalid (encode i) s (formatOf i) hs (formatOfTag_encode i) hn]
  rfl

/-- Only a reserved tag has no format (spec/30_encoding.md R72). -/
theorem formatOfTag_eq_none_iff (c : Byte) : formatOfTag c = none ↔ 2 ≤ c.toNat := by
  refine ⟨fun h => ?_, formatOfTag_eq_none c⟩
  obtain ⟨i, rfl⟩ | hc := eq_encode_or_reserved c
  · rw [formatOfTag_encode] at h
    cases h
  · exact hc

theorem not_reserved_of_formatOfTag {c : Byte} {f : OutputFormat} (hf : formatOfTag c = some f) : ¬ 2 ≤ c.toNat :=
  (formatOfTag_eq_none_iff c).not.1 (by simp [hf])

/-- A START that ends in ERROR has written its latches and the error entry, whose code names the check that failed (R151, R152), and
nothing else. -/
theorem start_error {c : Byte} {s t : State} (h : start c s = .next t) (he : t.convState = .error) :
    s.convState ≠ .busy ∧
      t = raiseError (if 2 ≤ c.toNat then .unsupportedFormat else .invalidDimensions) (s.withLatches c) := by
  obtain ⟨hs, ⟨hf, rfl⟩ | ⟨f, hf, ⟨_, rfl⟩ | ⟨_, rfl⟩⟩⟩ := start_next_cases c s t h
  · rw [if_pos ((formatOfTag_eq_none_iff c).1 hf)]
    exact ⟨hs, rfl⟩
  · rw [if_neg (not_reserved_of_formatOfTag hf)]
    exact ⟨hs, rfl⟩
  · exact absurd he (done_or_busy_ne_error _)

/-- Settles O12: the error entry gives the whole state, and outside BUSY the block takes no step. -/
theorem errorEntryIsPrecise : Obligations.ErrorEntryIsPrecise := by
  intro c s t h he
  rw [writeCmd_eq_start] at h
  exact ⟨(start_error h he).2, blockTurn_quiescent t (by simp [he])⟩

/-! ## The order of the checks -/

theorem conversionLength_eq_zero_iff_zero_area (src : Source) (f : OutputFormat) :
    conversionLength src.width src.height f = 0 ↔ src.width = 0#32 ∨ src.height = 0#32 := by
  rw [conversionLength_eq_zero_iff, Nat.mul_eq_zero, BitVec.toNat_eq, BitVec.toNat_eq]
  rfl

/-- What START accepts is DONE at once with LEN = 0 where the source has no pixel, and BUSY otherwise. -/
theorem withAccepted_area (src : Source) (f : OutputFormat) (s : State) :
    (src.width = 0#32 ∨ src.height = 0#32 →
      (s.withAccepted (conversionLength src.width src.height f)).convState = .done ∧
        (s.withAccepted (conversionLength src.width src.height f)).len = 0#64) ∧
    (src.width ≠ 0#32 ∧ src.height ≠ 0#32 →
      (s.withAccepted (conversionLength src.width src.height f)).convState = .busy) := by
  have hzero := conversionLength_eq_zero_iff_zero_area src f
  refine ⟨fun harea => ?_, fun ⟨hw, hh⟩ => ?_⟩
  · rw [hzero.2 harea]
    exact ⟨rfl, rfl⟩
  · exact (done_or_busy_eq_busy _).2 (hzero.not.2 (not_or.2 ⟨hw, hh⟩))

/-- Settles O11: a reserved tag fails at the first check, and a command's tag leaves the length check and then the area. -/
theorem startChecksInOrder : Obligations.StartChecksInOrder := by
  intro c s hs
  rw [writeCmd_eq_start]
  cases hf : formatOfTag c with
  | none =>
    refine ⟨_, start_unsupported c s hs hf, fun _ => ⟨rfl, rfl⟩, fun f h => ?_⟩
    cases h
  | some f =>
    have hc := not_reserved_of_formatOfTag hf
    by_cases hn : s.cfg.lenMax < conversionLength s.src.width s.src.height f
    · refine ⟨_, start_invalid c s f hs hf hn, fun h => absurd h hc, fun g hg => ?_⟩
      cases hg
      exact ⟨fun _ => ⟨rfl, rfl⟩, fun hle => absurd hn (Nat.not_lt.2 hle)⟩
    · refine ⟨_, start_accepted c s f hs hf (Nat.not_lt.1 hn), fun h => absurd h hc, fun g hg => ?_⟩
      cases hg
      exact ⟨fun h => absurd h hn, fun _ => ⟨rfl, withAccepted_area s.src f (s.withLatches c)⟩⟩

/-! ## A START after an error -/

/-- Outside BUSY, START does not depend on STATUS, LEN or the latches: its checks read none of them, and each of its outcomes writes
them all. -/
theorem start_overwrites (c : Byte) {s : State} (hs : s.convState ≠ .busy) {q : ConvState} (hq : q ≠ .busy) (e : ErrCode)
    (n : U64) (g : Byte) (w h : U32) (a : Bool) :
    start c { s with convState := q, errCode := e, len := n, fmtR := g, wR := w, hR := h, aR := a } = start c s := by
  rw [start, if_neg hq, start, if_neg hs]
  rfl

/-- Settles O13: neither state is BUSY, and they differ only in what START overwrites. -/
theorem startFromErrorIsStartFromIdle : Obligations.StartFromErrorIsStartFromIdle := by
  intro c s hs
  rw [writeCmd_eq_start, writeCmd_eq_start]
  exact (start_overwrites c (by simp [hs]) (by decide) _ _ _ _ _ _).symm

/-- Settles O14: the error entry changed only what START overwrites. -/
theorem failedStartFailsAgain : Obligations.FailedStartFailsAgain := by
  intro c s t h he
  rw [writeCmd_eq_start] at h ⊢
  obtain ⟨hs, rfl⟩ := start_error h he
  exact (start_overwrites c hs (by decide) _ _ _ _ _ _).trans h

/-! ## The stops -/

/-- Settles O15: the first step is a START while BUSY, and a fault ends the run. -/
theorem commandWhileBusyFaults : Obligations.CommandWhileBusyFaults := by
  refine fun s hs => ⟨fun i => ?_, fun c rest hin k => ?_⟩
  · rw [exec_eq_start, start_busy _ s hs]
  · exact run_fault k s _ ((step_command s c rest hin).trans (start_busy c (s.withInputs rest) hs))

/-- A START stops only while BUSY (R166). -/
theorem start_next_or_busy (c : Byte) (s : State) :
    (∃ t, start c s = .next t) ∨ (start c s = .fault .hostProtocolViolation ∧ s.convState = .busy) := by
  by_cases hs : s.convState = .busy
  · exact .inr ⟨start_busy c s hs, hs⟩
  · obtain ⟨t, ht, _⟩ := startChecksInOrder c s hs
    exact .inl ⟨t, by rw [← writeCmd_eq_start, ht]⟩

/-- Of the host's accesses only a change of SRC stops, and only while BUSY (spec/70_reset_and_hazards.md R184). -/
theorem hostAccess_next_or_refused (a : HostAccess) (s : State) :
    (∃ t, hostAccess a s = .next t) ∨
      (hostAccess a s = .refused .sourceChangedWhileBusy ∧ s.convState = .busy ∧ ∃ src, a = .supplySrc src) := by
  cases a with
  | supplySrc src =>
    by_cases hk : s.convState = .busy ∧ keepsPixelValues src s = false
    · obtain ⟨hs, hchange⟩ := hk
      exact .inr ⟨supplySrc_refused src s hs hchange, hs, src, rfl⟩
    · exact .inl ⟨_, supplySrc_next src s fun hs => eq_true_of_ne_false fun hchange => hk ⟨hs, hchange⟩⟩
  | _ => exact .inl ⟨_, rfl⟩

theorem Inv.exists_blockTurn_next {s : State} (h : Machine.Inv s) : ∃ t, Machine.blockTurn s = .next t := by
  obtain ⟨hquiet, hbusy⟩ := blockTurnNeverFails s h
  by_cases hs : s.convState = .busy
  · obtain ⟨t, ht, _⟩ := hbusy hs
    exact ⟨t, ht⟩
  · exact ⟨s, hquiet hs⟩

/-- Under the invariant a step answers a next state but in two cases, each a host violation while BUSY. -/
theorem Inv.step_next_or_violation {s : State} (h : Machine.Inv s) :
    (∃ t, step s = .next t) ∨
      (step s = .fault .hostProtocolViolation ∧ s.convState = .busy ∧ ∃ c r, s.inputs = .command c :: r) ∨
      (step s = .refused .sourceChangedWhileBusy ∧ s.convState = .busy ∧
        ∃ src r, s.inputs = .access (.supplySrc src) :: r) := by
  cases hin : s.inputs with
  | nil =>
    rw [step_nil s hin]
    exact .inl h.exists_blockTurn_next
  | cons m r =>
    cases m with
    | block =>
      have hi : Machine.Inv (s.withInputs r) := h.withInputs r fun i hi => h.inputsForm i (by simp [hin, hi])
      rw [step_block s r hin]
      exact .inl hi.exists_blockTurn_next
    | reset => exact .inl ⟨_, step_reset s r hin⟩
    | access a =>
      rw [step_access s a r hin]
      obtain ht | ⟨he, hs, src, rfl⟩ := hostAccess_next_or_refused a (s.withInputs r)
      · exact .inl ht
      · exact .inr (.inr ⟨he, hs, src, r, rfl⟩)
    | command c =>
      rw [step_command s c r hin]
      obtain ht | ⟨he, hs⟩ := start_next_or_busy c (s.withInputs r)
      · exact .inl ht
      · exact .inr (.inl ⟨he, hs, c, r, rfl⟩)

/-- Settles O55: a step that answers no next state is one of the two violations. -/
theorem onlyHostViolationsStopTheMachine : Obligations.OnlyHostViolationsStopTheMachine := by
  intro s h
  obtain ⟨t, ht⟩ | ⟨ht, hcause⟩ | ⟨ht, hcause⟩ := h.step_next_or_violation <;> rw [ht]
  · exact ⟨nofun, nofun⟩
  · refine ⟨fun e he => ?_, nofun⟩
    cases he
    exact ⟨rfl, hcause⟩
  · refine ⟨nofun, fun r hr => ?_⟩
    cases hr
    exact ⟨rfl, hcause⟩

end Sys2Proof.Machine
end

section
/-! Reset and hazards (spec/70_reset_and_hazards.md): what a reset leaves, and what a host write of OUT changes. -/

namespace Sys2Proof.Machine

/-! ## Reset -/

/-- Settles O44: `State.reset` is one fixed state, and each part is its value there. -/
theorem resetStateReadsZero : Obligations.ResetStateReadsZero := ⟨rfl, rfl, rfl, rfl, rfl⟩

/-- After reset the block is quiescent and every buffer is empty, so the parameters are all that the invariant asks about. -/
theorem inv_resetWith {cfg : Config} (h : cfg.wf = true) : Machine.Inv (State.resetWith cfg) where
  config := h
  outForm := rfl
  oldForm := rfl
  lateForm := rfl
  srcForm := rfl
  viewForm := rfl
  inputsForm := nofun
  pendForm := rfl
  errCode := ⟨fun he => absurd rfl he, nofun⟩
  busy := nofun
  done := nofun
  quiet := fun _ => rfl
  lateQuiet := fun _ => rfl
  latePending := nofun

/-- Settles O47: the state is IDLE with no host write waiting, so there is no byte to account for. -/
theorem resetMeetsTheInvariants : Obligations.ResetMeetsTheInvariants :=
  fun _ h => (cleanInv_iff _).2 ⟨inv_resetWith h, bytesClean_quiet (.inl rfl) rfl⟩

theorem statusWord_applyReset (s : State) : statusWord (applyReset s) = 0x00#8 := by
  rw [statusWord, applyReset_errCode, applyReset_convState]
  rfl

/-- Settles O45: the reset lands the host writes that wait and no other byte. -/
theorem resetInputEffect : Obligations.ResetInputEffect := by
  intro s rest hin
  exact ⟨_, step_reset s rest hin, statusWord_applyReset _, rfl, rfl, rfl, rfl, rfl,
    fun a ha => Memory.read_overlay_none s.out s.late a ha⟩

/-- Settles O46: the reset leaves IDLE with no input to come, and from there the machine stays as it is. -/
theorem resetAbandonsConversion : Obligations.ResetAbandonsConversion := by
  intro s k hin hlate
  have hrun : Host.Core.run Sys2Proof.core (k + 1) s = .next (applyReset (s.withInputs [])) :=
    (run_next k s _ (step_reset s [] hin)).trans (run_quiescent k _ rfl (by simp))
  exact ⟨_, Nat.add_comm 1 k ▸ hrun, rfl, applyReset_keeps_out (s.withInputs []) hlate⟩

/-! ## A host write of OUT -/

theorem step_writeOut {s : State} {off : U64} {v : Byte} {r : List Input}
    (hin : s.inputs = .access (.writeOut off v) :: r) :
    step s = .next ((writeOut (Config.drawBit s.draws) off.toNat v (s.withInputs r)).withDraws (s.draws + 1)) :=
  step_access s (.writeOut off v) r hin

/-- A host write of OUT leaves every other byte of the three buffers alone. -/
theorem writeOut_read_other (after : Bool) {off a : Nat} (v : Byte) (s : State) (ha : a ≠ off) :
    Memory.read (writeOut after off v s).out a = Memory.read s.out a ∧
      Memory.read (writeOut after off v s).outOld a = Memory.read s.outOld a ∧
      Memory.read (writeOut after off v s).late a = Memory.read s.late a := by
  unfold writeOut
  split_ifs <;> simp [Memory.read_write, Memory.read_erase, ha]

/-- The final value of a byte once the buffers hold `m`, `o` and `l`: a pending byte ends as the host write that waits for it, else as
the conversion's byte; every other byte as it stands. -/
theorem finalByte_withBuffers (off : Nat) (m o l : Memory) (s : State) :
    finalByte off (s.withBuffers m o l) =
      if bytePending off s then (Memory.read l off).getD ((conversionByte off s).getD (hostByte m off))
      else hostByte m off := by
  have hp : bytePending off (s.withBuffers m o l) = bytePending off s := rfl
  have hc : conversionByte off (s.withBuffers m o l) = conversionByte off s := rfl
  cases hl : Memory.read l off <;> simp [finalByte, hp, hc, hl]

/-- The final value of a byte depends on what the buffers hold for that byte only. -/
theorem finalByte_withBuffers_congr {off : Nat} {m o l : Memory} {s : State}
    (hm : Memory.read m off = Memory.read s.out off) (hl : Memory.read l off = Memory.read s.late off) :
    finalByte off (s.withBuffers m o l) = finalByte off s := by
  have hs : finalByte off s = finalByte off (s.withBuffers s.out s.outOld s.late) := rfl
  rw [hs, finalByte_withBuffers, finalByte_withBuffers, hl, hostByte, hm, hostByte]

theorem finalByte_writeOut_other (after : Bool) {off a : Nat} (v : Byte) (s : State) (ha : a ≠ off) :
    finalByte a (writeOut after off v s) = finalByte a s := by
  obtain ⟨hout, _, hlate⟩ := writeOut_read_other after v s ha
  obtain ⟨m, o, l, hw⟩ := writeOut_buffers after off v s
  rw [hw] at hout hlate ⊢
  exact finalByte_withBuffers_congr hout hlate

theorem hostByte_write_same (m : Memory) (off : Nat) (v : Byte) : hostByte (Memory.write m off v) off = v := by
  rw [hostByte, Memory.read_write_same, Option.getD_some]

/-- During a conversion the byte the host wrote ends as the host's value, as it was to end, or as the conversion's (R186). -/
theorem finalByte_writeOut_same (after : Bool) {off : Nat} (v : Byte) {s : State}
    (h : s.convState = .busy ∧ off < s.len.toNat) :
    finalByte off (writeOut after off v s) = v ∨ finalByte off (writeOut after off v s) = finalByte off s ∨
      conversionByte off s = some (finalByte off (writeOut after off v s)) := by
  rw [writeOut, if_pos h]
  split_ifs with hp
  · rw [finalByte_withBuffers, if_pos hp, Memory.read_write_same]
    exact .inl rfl
  · rw [finalByte_withBuffers, if_pos hp, Memory.read_erase, if_pos rfl, Option.getD_none, hostByte_write_same]
    cases hc : conversionByte off s with
    | none => exact .inl rfl
    | some w => exact .inr (.inr rfl)
  · rw [finalByte_withBuffers, if_neg hp]
    exact .inl (hostByte_write_same _ _ _)
  · exact .inr (.inl (finalByte_withBuffers_congr rfl rfl))

/-- Settles O42: the write changes the three buffers at its own offset only; it lands outside a conversion, and `finalByte_writeOut_same`
says how its byte ends during one. -/
theorem hostWriteOfOut : Obligations.HostWriteOfOut := by
  intro s off v rest _ hin
  refine ⟨_, step_writeOut hin, ?_, fun a ha => ?_, fun hplain => ?_, fun hrun => ?_⟩
  · obtain ⟨m, o, l, hw⟩ := writeOut_buffers (Config.drawBit s.draws) off.toNat v (s.withInputs rest)
    rw [hw]
    rfl
  · obtain ⟨hout, hold, hlate⟩ := writeOut_read_other (Config.drawBit s.draws) v (s.withInputs rest) ha
    exact ⟨hout, hold, hlate, finalByte_writeOut_other _ v (s.withInputs rest) ha⟩
  · rw [writeOut_plain _ _ _ (s.withInputs rest) hplain]
    exact Memory.read_write_same _ _ _
  · exact finalByte_writeOut_same _ v (s := s.withInputs rest) hrun

end Sys2Proof.Machine
end
